-- ==== Sys2Proof/Word.lean ====
section
/-!
DEFINITION. The bit-vector types of the block: bytes, 16-bit words, 4-bit fields and 12-bit addresses (R5, R6, R71).
-/

namespace Sys2Proof

/-- An 8-bit value: a V register, a memory byte, a timer, the immediate `kk`. -/
abbrev Byte := BitVec 8

/-- A 16-bit value: an opcode, `PC`, `I`, a stack entry. -/
abbrev Word := BitVec 16

/-- A 4-bit opcode field: a register index `x` or `y`, or the height `n` (R71). -/
abbrev Nibble := BitVec 4

/-- The 12-bit opcode field `nnn` (R71). -/
abbrev Addr12 := BitVec 12

/-- `(p ? 1 : 0)` as a byte (R7). -/
def bitByte (p : Bool) : Byte := if p then 1 else 0

end Sys2Proof
end

