-- ==== Sys2Proof/WellFormed.lean ====
section
/-!
DEFINITION. Which instructions are well-formed: every operand fits the opcode field it is encoded in (R71, R72).
The operand types of `Instr` already have the widths of those fields, so every instruction passes; the check on a raw
operand value, `fitsField`, is what refuses one that is too wide.
-/

namespace Sys2Proof

/-- A raw operand value fits a field of `width` bits. -/
def fitsField (width value : Nat) : Bool := decide (value < 2 ^ width)

/-- A register index or a height fits the fields `x`, `y`, `n` of R71. -/
def nibbleOk (v : Nat) : Bool := fitsField 4 v

/-- An immediate fits the field `kk` of R71. -/
def byteOk (v : Nat) : Bool := fitsField 8 v

/-- An address fits the field `nnn` of R71. -/
def addrOk (v : Nat) : Bool := fitsField 12 v

/-- Every operand of the instruction fits its field. -/
def Instr.wellFormed : Instr → Bool
  | .cls | .ret => true
  | .jp nnn | .call nnn | .ldI nnn | .jpV0 nnn => addrOk nnn.toNat
  | .seImm x kk | .sneImm x kk | .ldImm x kk | .addImm x kk | .rnd x kk => nibbleOk x.toNat && byteOk kk.toNat
  | .seReg x y | .ldReg x y | .or x y | .and x y | .xor x y | .addReg x y | .sub x y | .shr x y | .subn x y | .shl x y
  | .sneReg x y => nibbleOk x.toNat && nibbleOk y.toNat
  | .drw x y n => nibbleOk x.toNat && nibbleOk y.toNat && nibbleOk n.toNat
  | .skp x | .sknp x | .ldVxDt x | .ldVxK x | .ldDtVx x | .ldStVx x | .addIVx x | .ldFVx x | .ldBVx x | .ldMemVx x
  | .ldVxMem x => nibbleOk x.toNat

end Sys2Proof
end

