-- ==== Sys2Proof/Decode.lean ====
section
/-!
DEFINITION. The decoder of R74 as the table of R76 (a mask, a match and the fields of R71), total on any word and on
any bytes, and the encoder written from the same table.
-/

namespace Sys2Proof

/-- `nnn = op[11:0]` (R71). -/
def fieldNnn (op : Word) : Addr12 := op.extractLsb' 0 12

/-- `kk = op[7:0]` (R71). -/
def fieldKk (op : Word) : Byte := op.extractLsb' 0 8

/-- `x = op[11:8]` (R71). -/
def fieldX (op : Word) : Nibble := op.extractLsb' 8 4

/-- `y = op[7:4]` (R71). -/
def fieldY (op : Word) : Nibble := op.extractLsb' 4 4

/-- `n = op[3:0]` (R71). -/
def fieldN (op : Word) : Nibble := op.extractLsb' 0 4

/-- A row of the opcode table: `op` selects it when `op & mask == pattern` (the table's `match`), and `operands` binds
the fields of R71 (R74). -/
structure Row where
  mnemonic : String
  mask : Word
  pattern : Word
  operands : Word → Instr

/-- `op & r.mask == r.match` (R74). -/
def rowMatches (op : Word) (r : Row) : Bool := op &&& r.mask == r.pattern

/-- Rows 1 to 9 of R76. -/
def opcodeRowsA : List Row := [
  ⟨"CLS", 0xFFFF, 0x00E0, fun _ => .cls⟩,
  ⟨"RET", 0xFFFF, 0x00EE, fun _ => .ret⟩,
  ⟨"JP", 0xF000, 0x1000, fun op => .jp (fieldNnn op)⟩,
  ⟨"CALL", 0xF000, 0x2000, fun op => .call (fieldNnn op)⟩,
  ⟨"SE_IMM", 0xF000, 0x3000, fun op => .seImm (fieldX op) (fieldKk op)⟩,
  ⟨"SNE_IMM", 0xF000, 0x4000, fun op => .sneImm (fieldX op) (fieldKk op)⟩,
  ⟨"SE_REG", 0xF00F, 0x5000, fun op => .seReg (fieldX op) (fieldY op)⟩,
  ⟨"LD_IMM", 0xF000, 0x6000, fun op => .ldImm (fieldX op) (fieldKk op)⟩,
  ⟨"ADD_IMM", 0xF000, 0x7000, fun op => .addImm (fieldX op) (fieldKk op)⟩]

/-- Rows 10 to 19 of R76. -/
def opcodeRowsB : List Row := [
  ⟨"LD_REG", 0xF00F, 0x8000, fun op => .ldReg (fieldX op) (fieldY op)⟩,
  ⟨"OR", 0xF00F, 0x8001, fun op => .or (fieldX op) (fieldY op)⟩,
  ⟨"AND", 0xF00F, 0x8002, fun op => .and (fieldX op) (fieldY op)⟩,
  ⟨"XOR", 0xF00F, 0x8003, fun op => .xor (fieldX op) (fieldY op)⟩,
  ⟨"ADD_REG", 0xF00F, 0x8004, fun op => .addReg (fieldX op) (fieldY op)⟩,
  ⟨"SUB", 0xF00F, 0x8005, fun op => .sub (fieldX op) (fieldY op)⟩,
  ⟨"SHR", 0xF00F, 0x8006, fun op => .shr (fieldX op) (fieldY op)⟩,
  ⟨"SUBN", 0xF00F, 0x8007, fun op => .subn (fieldX op) (fieldY op)⟩,
  ⟨"SHL", 0xF00F, 0x800E, fun op => .shl (fieldX op) (fieldY op)⟩,
  ⟨"SNE_REG", 0xF00F, 0x9000, fun op => .sneReg (fieldX op) (fieldY op)⟩]

/-- Rows 20 to 25 of R76. -/
def opcodeRowsC : List Row := [
  ⟨"LD_I", 0xF000, 0xA000, fun op => .ldI (fieldNnn op)⟩,
  ⟨"JP_V0", 0xF000, 0xB000, fun op => .jpV0 (fieldNnn op)⟩,
  ⟨"RND", 0xF000, 0xC000, fun op => .rnd (fieldX op) (fieldKk op)⟩,
  ⟨"DRW", 0xF000, 0xD000, fun op => .drw (fieldX op) (fieldY op) (fieldN op)⟩,
  ⟨"SKP", 0xF0FF, 0xE09E, fun op => .skp (fieldX op)⟩,
  ⟨"SKNP", 0xF0FF, 0xE0A1, fun op => .sknp (fieldX op)⟩]

/-- Rows 26 to 34 of R76. -/
def opcodeRowsD : List Row := [
  ⟨"LD_VX_DT", 0xF0FF, 0xF007, fun op => .ldVxDt (fieldX op)⟩,
  ⟨"LD_VX_K", 0xF0FF, 0xF00A, fun op => .ldVxK (fieldX op)⟩,
  ⟨"LD_DT_VX", 0xF0FF, 0xF015, fun op => .ldDtVx (fieldX op)⟩,
  ⟨"LD_ST_VX", 0xF0FF, 0xF018, fun op => .ldStVx (fieldX op)⟩,
  ⟨"ADD_I_VX", 0xF0FF, 0xF01E, fun op => .addIVx (fieldX op)⟩,
  ⟨"LD_F_VX", 0xF0FF, 0xF029, fun op => .ldFVx (fieldX op)⟩,
  ⟨"LD_B_VX", 0xF0FF, 0xF033, fun op => .ldBVx (fieldX op)⟩,
  ⟨"LD_MEM_VX", 0xF0FF, 0xF055, fun op => .ldMemVx (fieldX op)⟩,
  ⟨"LD_VX_MEM", 0xF0FF, 0xF065, fun op => .ldVxMem (fieldX op)⟩]

/-- The opcode table of R76, row 1 first. -/
def opcodeTable : List Row := opcodeRowsA ++ opcodeRowsB ++ opcodeRowsC ++ opcodeRowsD

/-- `decode` of R74: the matching row bound to the fields, or `none` for NoEntry. -/
def decodeWord (op : Word) : Option Instr :=
  (opcodeTable.find? (rowMatches op)).map fun r => r.operands op

/-- Why a decode answers no instruction. -/
inductive DecodeError where
  /-- The word has no table entry: NoEntry (R74, R77). -/
  | noEntry (op : Word)
  /-- Fewer than the two bytes every instruction has (R70). -/
  | tooShort (available : Nat)
  deriving DecidableEq, Repr

/-- The opcode with `op[15:8] = hi` and `op[7:0] = lo`, big-endian (R55, R91). -/
def wordOfBytes (hi lo : Byte) : Word := hi ++ lo

/-- `op[15:8]`, the byte at the lower address (R55). -/
def highByte (op : Word) : Byte := op.extractLsb' 8 8

/-- `op[7:0]`, the byte at the higher address (R55). -/
def lowByte (op : Word) : Byte := op.extractLsb' 0 8

/-- Decode the first instruction of a byte sequence, lowest address first, and give the bytes after it; every
instruction is two bytes (R70). -/
def decode : List Byte → Except DecodeError (Instr × List Byte)
  | hi :: lo :: rest =>
    match decodeWord (wordOfBytes hi lo) with
    | some i => .ok (i, rest)
    | none => .error (.noEntry (wordOfBytes hi lo))
  | short => .error (.tooShort short.length)

/-- A register index in the field `x`: `x<<8`. -/
def atX (x : Nibble) : Word := x.setWidth 16 <<< 8

/-- A register index in the field `y`: `y<<4`. -/
def atY (y : Nibble) : Word := y.setWidth 16 <<< 4

/-- The word of an instruction, each from the "Encoding" line of its rule. -/
def encode : Instr → Word
  | .cls => 0x00E0
  | .ret => 0x00EE
  | .jp nnn => 0x1000 ||| nnn.setWidth 16
  | .call nnn => 0x2000 ||| nnn.setWidth 16
  | .seImm x kk => 0x3000 ||| atX x ||| kk.setWidth 16
  | .sneImm x kk => 0x4000 ||| atX x ||| kk.setWidth 16
  | .seReg x y => 0x5000 ||| atX x ||| atY y
  | .ldImm x kk => 0x6000 ||| atX x ||| kk.setWidth 16
  | .addImm x kk => 0x7000 ||| atX x ||| kk.setWidth 16
  | .ldReg x y => 0x8000 ||| atX x ||| atY y
  | .or x y => 0x8001 ||| atX x ||| atY y
  | .and x y => 0x8002 ||| atX x ||| atY y
  | .xor x y => 0x8003 ||| atX x ||| atY y
  | .addReg x y => 0x8004 ||| atX x ||| atY y
  | .sub x y => 0x8005 ||| atX x ||| atY y
  | .shr x y => 0x8006 ||| atX x ||| atY y
  | .subn x y => 0x8007 ||| atX x ||| atY y
  | .shl x y => 0x800E ||| atX x ||| atY y
  | .sneReg x y => 0x9000 ||| atX x ||| atY y
  | .ldI nnn => 0xA000 ||| nnn.setWidth 16
  | .jpV0 nnn => 0xB000 ||| nnn.setWidth 16
  | .rnd x kk => 0xC000 ||| atX x ||| kk.setWidth 16
  | .drw x y n => 0xD000 ||| atX x ||| atY y ||| n.setWidth 16
  | .skp x => 0xE09E ||| atX x
  | .sknp x => 0xE0A1 ||| atX x
  | .ldVxDt x => 0xF007 ||| atX x
  | .ldVxK x => 0xF00A ||| atX x
  | .ldDtVx x => 0xF015 ||| atX x
  | .ldStVx x => 0xF018 ||| atX x
  | .addIVx x => 0xF01E ||| atX x
  | .ldFVx x => 0xF029 ||| atX x
  | .ldBVx x => 0xF033 ||| atX x
  | .ldMemVx x => 0xF055 ||| atX x
  | .ldVxMem x => 0xF065 ||| atX x

/-- The two bytes of an instruction as they lie in memory, lowest address first (R55). -/
def encodeBytes (i : Instr) : List Byte := [highByte (encode i), lowByte (encode i)]

/-- The instruction the decoder reads from an instruction whose bits are `w`, numbered as spec/opcode_table.json numbers
them: the one 16-bit word is bits 15..0, stored high byte first. -/
def decodeTableWord (nbits w : Nat) : Option Instr :=
  let op : Word := BitVec.ofNat 16 (w % 2 ^ min nbits 16)
  match decode [highByte op, lowByte op] with
  | .ok (i, _) => some i
  | .error _ => none

end Sys2Proof
end

