-- ==== Sys2Proof/Config.lean ====
section
/-!
DEFINITION. The parameters of the block that no instruction changes (R5), and its one free value, the random draw.
The FONT parameter stands in Machine/Font.lean.
-/

namespace Sys2Proof.Config

/-- `rand8` (R153, D19): the draw number `k` that Cxkk consumes. A FREE VALUE: it has no body here, so nothing can be
proved of it but what holds of every sequence of bytes (log 2). -/
opaque rand8 : Nat → Byte

/-- `MEM_SIZE`: addresses 0x000 to 0xFFF (R5, R50). -/
def memSize : Nat := 0x1000

/-- `FONT_BASE` (R5, R51). -/
def fontBase : Nat := 0x050

/-- `FONT_GLYPHS` x `GLYPH_BYTES` (R5, C2). -/
def fontBytes : Nat := 80

/-- `PROG_BASE`: the reset PC and the load address (R5). -/
def progBase : Nat := 0x200

/-- `ROM_MAX` (R5, C8). -/
def romMax : Nat := 3583

/-- `FB_WIDTH` (R5). -/
abbrev fbWidth : Nat := 64

/-- `FB_HEIGHT` (R5). -/
abbrev fbHeight : Nat := 32

end Sys2Proof.Config
end

