-- ==== Sys2Proof/Machine/State.lean ====
section
/-!
DEFINITION. The state of the block (10_state.md), the fault record, the reasons a step has no next state, and Reset's
result.
-/

namespace Sys2Proof.Machine

/-- `MEM` as the bytes that differ from the reset content, by rising address (the canonical form is `Memory.wf`). -/
abbrev Memory := List Host.Cell

/-- `FB[row][col]`: 32 rows of 64 one-bit pixels, row 0 on top, column 0 at the left (R32). -/
abbrev Frame := Vector (Vector Bool 64) 32

/-- The six CPU faults of R211. -/
inductive Cause where
  /-- The fetched opcode has no table entry (R77, R92). -/
  | illegalOpcode
  /-- `PC + 1 > 0xFFF` at fetch (R91). -/
  | fetchRange
  /-- A data address above 0xFFF (R53). -/
  | memRange
  /-- CALL with `SP` = 16 (R121). -/
  | stackOverflow
  /-- RET with `SP` = 0 (R122). -/
  | stackUnderflow
  /-- A key index above 0xF (R190). -/
  | keyRange
  deriving DecidableEq, Repr

/-- The fault record of R212. `opcode` is absent for FETCH_RANGE; `addr` is present only for MEM_RANGE (the lowest
offending address) and KEY_RANGE (the key index), an exact number because address sums do not wrap (R52). -/
structure FaultRecord where
  cause : Cause
  pc : Word
  opcode : Option Word
  addr : Option Nat
  deriving DecidableEq, Repr

/-- Why a step has no next state. The six faults of R211 are NOT here: taking one is a next state (R214), the one with
`halted` = 1 and the record in `fault`. -/
inductive Fault where
  /-- Raised by `step` alone, when the state is halted: a halted CPU has no step (R98, U13). It carries the held record.
  DEDUCED, safe: the hardware does not go on either (log 1). -/
  | halted (record : Option FaultRecord)
  deriving DecidableEq, Repr

/-- Why an instruction has no meaning. -/
inductive Refusal where
  /-- Raised by an arm of `exec` that has no meaning yet; no arm does. Safe: nothing is said of such an instruction. -/
  | notModelled (mnemonic : String)
  deriving DecidableEq, Repr

/-- All the state of the block: the elements of R20 to R34, and the model's own counter of random draws. -/
structure State where
  /-- `V[0]` to `V[15]` (R20); `V[15]` is `VF` (R21). -/
  v : Vector Byte 16
  /-- `PC` (R23). -/
  pc : Word
  /-- `I` (R26). -/
  i : Word
  /-- `SP`, 0 to 16 (R27). -/
  sp : Fin 17
  /-- `STACK[0]` to `STACK[15]` (R30). -/
  stack : Vector Word 16
  /-- `DT` (R28). -/
  dt : Byte
  /-- `ST` (R29). -/
  st : Byte
  /-- `KEY[0]` to `KEY[15]`, true = pressed (R31). -/
  key : Vector Bool 16
  /-- `MEM` (R33). -/
  mem : Memory
  /-- `FB` (R32). -/
  fb : Frame
  /-- `halted` (R34). -/
  halted : Bool
  /-- `fault` (R34, R212). -/
  fault : Option FaultRecord
  /-- `frame_changed` (R34, R94). -/
  frameChanged : Bool
  /-- `sound_expired` (R34, R96). -/
  soundExpired : Bool
  /-- The model's own, not the spec's: how many random bytes have been drawn, so that each Cxkk takes a fresh one
  (R153; DESIGN CHOICE, log 2). -/
  draws : Nat
  deriving DecidableEq, Repr

/-- The state after Reset (R35, R240). The memory lists nothing: an unlisted address reads as its reset content. -/
def State.reset : State where
  v := Vector.replicate 16 0
  pc := BitVec.ofNat 16 Config.progBase
  i := 0
  sp := 0
  stack := Vector.replicate 16 0
  dt := 0
  st := 0
  key := Vector.replicate 16 false
  mem := []
  fb := Vector.replicate 32 (Vector.replicate 64 false)
  halted := false
  fault := none
  frameChanged := false
  soundExpired := false
  draws := 0

end Sys2Proof.Machine
end

