-- ==== Sys2Proof/Machine/Font.lean ====
section
/-!
DEFINITION. The FONT parameter (R5, D18) at its default, and what each byte of memory holds after Reset (R35, R51).
-/

namespace Sys2Proof.Machine

/-- Glyphs 0 to 7 of the default FONT (G1), five bytes a glyph, top row first. -/
def fontLow : List Byte :=
  [0xF0, 0x90, 0x90, 0x90, 0xF0] ++ [0x20, 0x60, 0x20, 0x20, 0x70] ++ [0xF0, 0x10, 0xF0, 0x80, 0xF0] ++
  [0xF0, 0x10, 0xF0, 0x10, 0xF0] ++ [0x90, 0x90, 0xF0, 0x10, 0x10] ++ [0xF0, 0x80, 0xF0, 0x10, 0xF0] ++
  [0xF0, 0x80, 0xF0, 0x90, 0xF0] ++ [0xF0, 0x10, 0x20, 0x40, 0x40]

/-- Glyphs 8 to F of the default FONT (G1). -/
def fontHigh : List Byte :=
  [0xF0, 0x90, 0xF0, 0x90, 0xF0] ++ [0xF0, 0x90, 0xF0, 0x10, 0xF0] ++ [0xF0, 0x90, 0xF0, 0x90, 0x90] ++
  [0xE0, 0x90, 0xE0, 0x90, 0xE0] ++ [0xF0, 0x80, 0x80, 0x80, 0xF0] ++ [0xE0, 0x90, 0x90, 0x90, 0xE0] ++
  [0xF0, 0x80, 0xF0, 0x80, 0xF0] ++ [0xF0, 0x80, 0xF0, 0x80, 0x80]

/-- `FONT[0..79]`, the default of D18. PRESUMED: the bytes are the customary ones, not the source's (log 3). -/
def font : Vector Byte 80 := ⟨⟨fontLow ++ fontHigh⟩, rfl⟩

/-- What an address holds after Reset (R35): `FONT[j]` at `0x050 + j`, 0 elsewhere. It is what an address the memory
does not list reads as (DESIGN CHOICE, log 4). -/
def initByte (a : Nat) : Byte :=
  if h : 0x050 ≤ a ∧ a < 0x050 + 80 then font[a - 0x050] else 0

end Sys2Proof.Machine
end

