-- ==== Sys2Proof/Machine/Ops.lean ====
section
/-!
DEFINITION. The named operations over memory, registers, the stack, PC and the framebuffer, and fault entry.
-/

namespace Sys2Proof.Machine

/-! ## Memory (20_memory.md) -/

/-- The byte at an address: the listed one, else the reset content. -/
def Memory.read : Memory → Nat → Byte
  | [], a => initByte a
  | (b, w) :: m, a => if b = a then w else Memory.read m a

/-- Take an address out of the list. -/
def Memory.erase (m : Memory) (a : Nat) : Memory := m.filter fun c => c.1 ≠ a

/-- List an address with a byte, in its place by rising address. -/
def Memory.insert : Memory → Nat → Byte → Memory
  | [], a, v => [(a, v)]
  | (b, w) :: m, a, v =>
    if b < a then (b, w) :: Memory.insert m a v
    else if b = a then (a, v) :: m
    else (a, v) :: (b, w) :: m

/-- Write one byte. Writing what an unlisted address reads as takes the address out of the list. -/
def Memory.write (m : Memory) (a : Nat) (v : Byte) : Memory :=
  if v = initByte a then Memory.erase m a else Memory.insert m a v

/-- The canonical form from address `lo` on: strictly rising addresses inside the 4096 bytes, no listed byte equal to
what its address reads as unlisted. -/
def Memory.wfFrom : Nat → Memory → Bool
  | _, [] => true
  | lo, (a, v) :: m => decide (lo ≤ a) && decide (a < Config.memSize) && v != initByte a && Memory.wfFrom (a + 1) m

/-- The canonical form of a memory. -/
def Memory.wf (m : Memory) : Bool := Memory.wfFrom 0 m

/-- `n` bytes from `base` up. -/
def Memory.readBytes (m : Memory) (base n : Nat) : List Byte :=
  (List.range n).map fun k => Memory.read m (base + k)

/-- Write bytes at `base`, `base + 1`, ... The addresses differ, so the order of the writes shows nowhere (R57); the
last one is written first, which keeps the list short while it grows. -/
def Memory.writeBytes (m : Memory) (base : Nat) : List Byte → Memory
  | [] => m
  | b :: bs => Memory.write (Memory.writeBytes m (base + 1) bs) base b

/-- `MemRead(a, 1)` (R8). -/
def readByte (s : State) (a : Nat) : Byte := Memory.read s.mem a

/-- `MemWrite` of a run of bytes (R8). -/
def storeBytes (s : State) (base : Nat) (bs : List Byte) : State := { s with mem := Memory.writeBytes s.mem base bs }

/-- The lowest of the addresses `base` to `base + n - 1` that is above 0xFFF, if any: exact sums, no wrap (R52, R53). -/
def firstOutside (base n : Nat) : Option Nat :=
  ((List.range n).map fun k => base + k).find? fun a => decide (0xFFF < a)

/-! ## Registers, PC and the stack (10_state.md) -/

/-- The index of `VF` (R21). -/
def vF : Nibble := 0xF

/-- `V[x]` (R8). -/
def reg (s : State) (x : Nibble) : Byte := s.v[x.toNat]'x.isLt

/-- `V[x] <- b` (R8). -/
def setReg (s : State) (x : Nibble) (b : Byte) : State := { s with v := s.v.set x.toNat b x.isLt }

/-- `V[x] <- result`, then `V[15] <- flag`, the flag last (R140). -/
def setRegFlag (s : State) (x : Nibble) (result flag : Byte) : State := setReg (setReg s x result) vF flag

/-- `V[0] <- bs[0]`, `V[1] <- bs[1]`, ... from register `k` up. -/
def setRegsFrom (s : State) (k : Nat) : List Byte → State
  | [] => s
  | b :: bs => setRegsFrom (setReg s (BitVec.ofNat 4 k) b) (k + 1) bs

/-- `I <- w` (R8, R26). -/
def setIndex (s : State) (w : Word) : State := { s with i := w }

/-- `DT <- b` (R8, R28). -/
def setDelay (s : State) (b : Byte) : State := { s with dt := b }

/-- `ST <- b` (R8, R29). -/
def setSound (s : State) (b : Byte) : State := { s with st := b }

/-- `pc <- target` (R8). -/
def jumpTo (s : State) (target : Word) : State := { s with pc := target }

/-- `pc <- PC +_16 2` (R24). -/
def nextInstr (s : State) : State := { s with pc := s.pc + 2 }

/-- A skip: `PC +_16 4` when taken, else `PC +_16 2` (R24, R120). -/
def skipIf (taken : Bool) (s : State) : State := if taken then { s with pc := s.pc + 4 } else nextInstr s

/-- `STACK[SP] <- w; SP <- SP + 1`, when there is a free entry (R121). -/
def push (s : State) (w : Word) (h : s.sp.val < 16) : State :=
  { s with stack := s.stack.set s.sp.val w h, sp := ⟨s.sp.val + 1, by omega⟩ }

/-- `SP <- SP - 1`, when an entry is in use; the entry keeps its value (R122, R30). -/
def pop (s : State) (_h : 0 < s.sp.val) : State := { s with sp := ⟨s.sp.val - 1, by omega⟩ }

/-- `STACK[SP - 1]`, the entry the next RET reads (R27). -/
def stackTop (s : State) (h : 0 < s.sp.val) : Word := s.stack[s.sp.val - 1]'(by omega)

/-! ## Fault entry (60_exceptions.md) -/

/-- Taking a fault (R214): `halted <- 1`, `fault <- record`, `pc` of the record the PC of the faulting cycle (R212), and
nothing else changes. -/
def enterFault (s : State) (cause : Cause) (opcode : Option Word) (addr : Option Nat) : State :=
  { s with halted := true, fault := some ⟨cause, s.pc, opcode, addr⟩ }

/-- The code of a cause in the table of R211. -/
def causeCode : Cause → Nat
  | .illegalOpcode => 1
  | .fetchRange => 2
  | .memRange => 3
  | .stackOverflow => 4
  | .stackUnderflow => 5
  | .keyRange => 6

/-! ## The framebuffer (41_display.md) -/

/-- `FB` replaced as a whole (R8). -/
def setFrame (s : State) (fb : Frame) : State := { s with fb := fb }

/-- `Clear()` (R101). -/
def clearFrame : Frame := Vector.replicate 32 (Vector.replicate 64 false)

/-- `FB[row][col]`, false outside the grid. -/
def pixel (fb : Frame) (row col : Nat) : Bool :=
  if h : row < 32 ∧ col < 64 then (fb[row]'h.1)[col]'h.2 else false

/-- Invert one pixel and say whether it was set; outside the grid nothing is drawn and nothing collides (R102, R103). -/
def togglePixel (fb : Frame) (row col : Nat) : Frame × Bool :=
  if h : row < 32 ∧ col < 64 then
    (fb.set row ((fb[row]'h.1).set col (!(fb[row]'h.1)[col]'h.2) h.2) h.1, (fb[row]'h.1)[col]'h.2)
  else (fb, false)

/-- Invert pixels one after another; the collision is 1 if any of them was set (R102). -/
def togglePixels : List (Nat × Nat) → Frame → Frame × Bool
  | [], fb => (fb, false)
  | p :: ps, fb =>
    let first := togglePixel fb p.1 p.2
    let rest := togglePixels ps first.1
    (rest.1, first.2 || rest.2)

/-- The pixels, as (row, column), under the 1 bits of one sprite row at column `x`, most significant bit leftmost
(R102); exact sums, no wrap. -/
def rowPixels (row x : Nat) (b : Byte) : List (Nat × Nat) :=
  ((List.range 8).filter fun c => b.getLsbD (7 - c)).map fun c => (row, x + c)

/-- The pixels under the 1 bits of a sprite at column `x`, row `y`, top row first (R102). -/
def spritePixels (x y : Nat) : List Byte → List (Nat × Nat)
  | [] => []
  | b :: bs => rowPixels y x b ++ spritePixels x (y + 1) bs

/-- `CompositeSprite(x, y, h, sprite)` with `h` the number of sprite bytes: the new grid and the collision (R102). -/
def compositeSprite (fb : Frame) (x y : Nat) (sprite : List Byte) : Frame × Bool :=
  togglePixels (spritePixels x y sprite) fb

end Sys2Proof.Machine
end

