-- ==== Sys2Proof/Machine/Cycle.lean ====
section
/-!
DEFINITION. The phases of a cycle around execute (40_cycle.md): fetch, decode, and the end of the cycle.
-/

namespace Sys2Proof.Machine

/-- What fetch and decode give: an instruction to execute, or the state after a fault they raised. -/
inductive Fetched where
  | instr (i : Instr)
  | faulted (s : State)
  deriving DecidableEq, Repr

/-- `op = MEM[PC] * 256 + MEM[PC + 1]` (R91). -/
def opcodeAtPc (s : State) : Word := wordOfBytes (readByte s s.pc.toNat) (readByte s (s.pc.toNat + 1))

/-- Phases 1 and 2 of R90: FETCH_RANGE when `PC + 1 > 0xFFF` (R91), ILLEGAL_OPCODE when the opcode has no entry (R92). -/
def fetchDecode (s : State) : Fetched :=
  if 0xFFF < s.pc.toNat + 1 then .faulted (enterFault s .fetchRange none none)
  else
    match decodeWord (opcodeAtPc s) with
    | some i => .instr i
    | none => .faulted (enterFault s .illegalOpcode (some (opcodeAtPc s)) none)

/-- The instructions whose cycle reports a changed frame: CLS and DRW, whatever the pixels did (R94). -/
def marksFrame : Instr → Bool
  | .cls => true
  | .drw _ _ _ => true
  | .ret | .jp _ | .call _ | .seImm _ _ | .sneImm _ _ | .seReg _ _ | .ldImm _ _ | .addImm _ _ | .ldReg _ _ => false
  | .or _ _ | .and _ _ | .xor _ _ | .addReg _ _ | .sub _ _ | .shr _ _ | .subn _ _ | .shl _ _ | .sneReg _ _ => false
  | .ldI _ | .jpV0 _ | .rnd _ _ | .skp _ | .sknp _ | .ldVxDt _ | .ldVxK _ | .ldDtVx _ | .ldStVx _ | .addIVx _ => false
  | .ldFVx _ | .ldBVx _ | .ldMemVx _ | .ldVxMem _ => false

/-- A timer after the end of a cycle: one less while nonzero (R95, R96). -/
def countDown (t : Byte) : Byte := if t = 0 then 0 else t - 1

/-- Phase 4 of R90: `frame_changed` (R94), the decrement of DT (R95), the decrement of ST and its pulse (R96). -/
def bookkeeping (i : Instr) (s : State) : State :=
  { s with
    frameChanged := marksFrame i
    dt := countDown s.dt
    st := countDown s.st
    soundExpired := s.st == 1 }

/-- The end of a cycle that executed `i`: phase 4, which does not run when the instruction raised a fault (R93, R214). -/
def endCycle (i : Instr) (s : State) : State := if s.halted then s else bookkeeping i s

end Sys2Proof.Machine
end

