-- ==== Sys2Proof/Machine/Flags.lean ====
section
/-!
DEFINITION. Every value an instruction writes into VF as a flag (R22).
-/

namespace Sys2Proof.Machine

/-- 8xy4: 1 iff the exact sum is above 255 (R148). -/
def carryFlag (a b : Byte) : Byte := bitByte (decide (255 < a.toNat + b.toNat))

/-- 8xy5 with `a = Vx`, `b = Vy`, and 8xy7 the other way round: 1 iff strictly greater, unsigned (R149, R151). -/
def greaterFlag (a b : Byte) : Byte := bitByte (decide (b.toNat < a.toNat))

/-- 8xy6: bit 0, the bit shifted out (R150). -/
def lowBitFlag (a : Byte) : Byte := bitByte (a.getLsbD 0)

/-- 8xyE: bit 7, the bit shifted out (R152). -/
def highBitFlag (a : Byte) : Byte := bitByte (a.getLsbD 7)

/-- Dxyn: 1 iff the draw cleared a set pixel (R104, R106). -/
def collisionFlag (collision : Bool) : Byte := bitByte collision

end Sys2Proof.Machine
end

