-- ==== Sys2Proof/Machine/Operands.lean ====
section
/-!
DEFINITION. The operand forms: immediates, the registers V0 to Vx, the bytes at I, decimal digits, the keypad, the draw.
-/

namespace Sys2Proof.Machine

/-- `zext_16(nnn)` (R72). -/
def zextAddr (nnn : Addr12) : Word := nnn.setWidth 16

/-- `zext_16(Vx)` (R7). -/
def zextByte (b : Byte) : Word := b.setWidth 16

/-- `V0` to `Vx`, the `x + 1` registers Fx55 stores (R72, R174). -/
def regsUpTo (s : State) (x : Nibble) : List Byte := s.v.toList.take (x.toNat + 1)

/-- The `n` bytes at `I` (R57). -/
def bytesAtI (s : State) (n : Nat) : List Byte := Memory.readBytes s.mem s.i.toNat n

/-- Hundreds, tens, ones of a byte (R173). -/
def decimalDigits (b : Byte) : List Byte :=
  [BitVec.ofNat 8 (b.toNat / 100), BitVec.ofNat 8 (b.toNat / 10 % 10), BitVec.ofNat 8 (b.toNat % 10)]

/-- An instruction whose data bytes are `I` to `I + n - 1`: MEM_RANGE with the lowest address above 0xFFF and nothing
written, or else the state `done` (R53, R9). -/
def withBytesAtI (i : Instr) (n : Nat) (s done : State) : Host.Outcome State Fault Refusal :=
  match firstOutside s.i.toNat n with
  | some a => .next (enterFault s .memRange (some (encode i)) (some a))
  | none => .next done

/-- `KEY[k]` for a byte `k`, absent above 0xF (R190). -/
def keyAt (s : State) (k : Byte) : Option Bool := s.key.toList[k.toNat]?

/-- An instruction that skips when key `Vx` is in the state `want`: KEY_RANGE when `Vx` is above 0xF (R190 to R192). -/
def keySkip (i : Instr) (x : Nibble) (want : Bool) (s : State) : Host.Outcome State Fault Refusal :=
  match keyAt s (reg s x) with
  | some down => .next (skipIf (down == want) s)
  | none => .next (enterFault s .keyRange (some (encode i)) (some (reg s x).toNat))

/-- The least pressed key (KEY_SELECT, R194), from key `k` up. -/
def leastKeyFrom (k : Nat) : List Bool → Option Nat
  | [] => none
  | down :: ks => if down then some k else leastKeyFrom (k + 1) ks

/-- The least `k` with `KEY[k]` = 1, if any key is pressed (R194). -/
def leastKey (s : State) : Option Nat := leastKeyFrom 0 s.key.toList

/-- `rand8`, the draw this Cxkk consumes (R153; log 2). -/
def randomByte (s : State) : Byte := Config.rand8 s.draws

/-- The draw is consumed: the next Cxkk takes a fresh one (R153; log 2). -/
def consumeDraw (s : State) : State := { s with draws := s.draws + 1 }

end Sys2Proof.Machine
end

