-- ==== Sys2Proof/Machine/Alu.lean ====
section
/-!
DEFINITION. The meanings of 43_alu.md: loads, logic, arithmetic, shifts, random.
-/

namespace Sys2Proof.Machine

/-- LD Vx, kk, 6xkk (R141). -/
def execLdImm (x : Nibble) (kk : Byte) (s : State) : Host.Outcome State Fault Refusal :=
  .next (nextInstr (setReg s x kk))

/-- ADD Vx, kk, 7xkk (R142): no flag. -/
def execAddImm (x : Nibble) (kk : Byte) (s : State) : Host.Outcome State Fault Refusal :=
  .next (nextInstr (setReg s x (reg s x + kk)))

/-- LD Vx, Vy, 8xy0 (R143). -/
def execLdReg (x y : Nibble) (s : State) : Host.Outcome State Fault Refusal :=
  .next (nextInstr (setReg s x (reg s y)))

/-- OR Vx, Vy, 8xy1 (R144): VF is not reset. -/
def execOr (x y : Nibble) (s : State) : Host.Outcome State Fault Refusal :=
  .next (nextInstr (setReg s x (reg s x ||| reg s y)))

/-- AND Vx, Vy, 8xy2 (R145): VF is not reset. -/
def execAnd (x y : Nibble) (s : State) : Host.Outcome State Fault Refusal :=
  .next (nextInstr (setReg s x (reg s x &&& reg s y)))

/-- XOR Vx, Vy, 8xy3 (R146): VF is not reset. -/
def execXor (x y : Nibble) (s : State) : Host.Outcome State Fault Refusal :=
  .next (nextInstr (setReg s x (reg s x ^^^ reg s y)))

/-- ADD Vx, Vy, 8xy4 (R148). -/
def execAddReg (x y : Nibble) (s : State) : Host.Outcome State Fault Refusal :=
  .next (nextInstr (setRegFlag s x (reg s x + reg s y) (carryFlag (reg s x) (reg s y))))

/-- SUB Vx, Vy, 8xy5 (R149). -/
def execSub (x y : Nibble) (s : State) : Host.Outcome State Fault Refusal :=
  .next (nextInstr (setRegFlag s x (reg s x - reg s y) (greaterFlag (reg s x) (reg s y))))

/-- SHR Vx, 8xy6 (R150): the field `y` selects nothing (R78). -/
def execShr (x : Nibble) (s : State) : Host.Outcome State Fault Refusal :=
  .next (nextInstr (setRegFlag s x (reg s x >>> 1) (lowBitFlag (reg s x))))

/-- SUBN Vx, Vy, 8xy7 (R151). -/
def execSubn (x y : Nibble) (s : State) : Host.Outcome State Fault Refusal :=
  .next (nextInstr (setRegFlag s x (reg s y - reg s x) (greaterFlag (reg s y) (reg s x))))

/-- SHL Vx, 8xyE (R152): the field `y` selects nothing (R78). -/
def execShl (x : Nibble) (s : State) : Host.Outcome State Fault Refusal :=
  .next (nextInstr (setRegFlag s x (reg s x <<< 1) (highBitFlag (reg s x))))

/-- RND Vx, kk, Cxkk (R153): one fresh draw, masked. -/
def execRnd (x : Nibble) (kk : Byte) (s : State) : Host.Outcome State Fault Refusal :=
  .next (nextInstr (consumeDraw (setReg s x (randomByte s &&& kk))))

end Sys2Proof.Machine
end

