-- ==== Sys2Proof/Machine/Control.lean ====
section
/-!
DEFINITION. The meanings of 42_control_flow.md: jumps, calls, returns, the compare skips.
-/

namespace Sys2Proof.Machine

/-- RET, 00EE (R122): STACK_UNDERFLOW on an empty stack. -/
def execRet (s : State) : Host.Outcome State Fault Refusal :=
  if h : 0 < s.sp.val then .next (jumpTo (pop s h) (stackTop s h))
  else .next (enterFault s .stackUnderflow (some (encode .ret)) none)

/-- JP nnn, 1nnn (R123). -/
def execJp (nnn : Addr12) (s : State) : Host.Outcome State Fault Refusal := .next (jumpTo s (zextAddr nnn))

/-- CALL nnn, 2nnn (R121): the address of the next instruction is pushed; STACK_OVERFLOW on a full stack. -/
def execCall (nnn : Addr12) (s : State) : Host.Outcome State Fault Refusal :=
  if h : s.sp.val < 16 then .next (jumpTo (push s (s.pc + 2) h) (zextAddr nnn))
  else .next (enterFault s .stackOverflow (some (encode (.call nnn))) none)

/-- SE Vx, kk, 3xkk (R124). -/
def execSeImm (x : Nibble) (kk : Byte) (s : State) : Host.Outcome State Fault Refusal :=
  .next (skipIf (reg s x == kk) s)

/-- SNE Vx, kk, 4xkk (R125). -/
def execSneImm (x : Nibble) (kk : Byte) (s : State) : Host.Outcome State Fault Refusal :=
  .next (skipIf (reg s x != kk) s)

/-- SE Vx, Vy, 5xy0 (R126). -/
def execSeReg (x y : Nibble) (s : State) : Host.Outcome State Fault Refusal :=
  .next (skipIf (reg s x == reg s y) s)

/-- SNE Vx, Vy, 9xy0 (R127). -/
def execSneReg (x y : Nibble) (s : State) : Host.Outcome State Fault Refusal :=
  .next (skipIf (reg s x != reg s y) s)

/-- JP V0, nnn, Bnnn (R131): the offset is always V0. -/
def execJpV0 (nnn : Addr12) (s : State) : Host.Outcome State Fault Refusal :=
  .next (jumpTo s (zextByte (reg s 0) + zextAddr nnn))

end Sys2Proof.Machine
end

