-- ==== Sys2Proof/Machine/Display.lean ====
section
/-!
DEFINITION. The meanings of 41_display.md: CLS and DRW.
-/

namespace Sys2Proof.Machine

/-- CLS, 00E0 (R105). -/
def execCls (s : State) : Host.Outcome State Fault Refusal := .next (nextInstr (setFrame s clearFrame))

/-- DRW Vx, Vy, n, Dxyn (R106): all operands as they were at the start, VF last. -/
def execDrw (x y n : Nibble) (s : State) : Host.Outcome State Fault Refusal :=
  let drawn := compositeSprite s.fb (reg s x).toNat (reg s y).toNat (bytesAtI s n.toNat)
  withBytesAtI (.drw x y n) n.toNat s (nextInstr (setReg (setFrame s drawn.1) vF (collisionFlag drawn.2)))

end Sys2Proof.Machine
end

