-- ==== Sys2Proof/Machine/Index.lean ====
section
/-!
DEFINITION. The meanings of 44_index_memory.md: the writers of I, and the transfers at I, which leave I as it is (R176).
-/

namespace Sys2Proof.Machine

/-- LD I, nnn, Annn (R170). -/
def execLdI (nnn : Addr12) (s : State) : Host.Outcome State Fault Refusal :=
  .next (nextInstr (setIndex s (zextAddr nnn)))

/-- ADD I, Vx, Fx1E (R171): 16-bit, no flag. -/
def execAddIVx (x : Nibble) (s : State) : Host.Outcome State Fault Refusal :=
  .next (nextInstr (setIndex s (s.i + zextByte (reg s x))))

/-- LD F, Vx, Fx29 (R172): the whole byte is used. -/
def execLdFVx (x : Nibble) (s : State) : Host.Outcome State Fault Refusal :=
  .next (nextInstr (setIndex s (0x050 + 5 * zextByte (reg s x))))

/-- LD B, Vx, Fx33 (R173). -/
def execLdBVx (x : Nibble) (s : State) : Host.Outcome State Fault Refusal :=
  withBytesAtI (.ldBVx x) 3 s (nextInstr (storeBytes s s.i.toNat (decimalDigits (reg s x))))

/-- LD [I], Vx, Fx55 (R174). -/
def execLdMemVx (x : Nibble) (s : State) : Host.Outcome State Fault Refusal :=
  withBytesAtI (.ldMemVx x) (x.toNat + 1) s (nextInstr (storeBytes s s.i.toNat (regsUpTo s x)))

/-- LD Vx, [I], Fx65 (R175). -/
def execLdVxMem (x : Nibble) (s : State) : Host.Outcome State Fault Refusal :=
  withBytesAtI (.ldVxMem x) (x.toNat + 1) s (nextInstr (setRegsFrom s 0 (bytesAtI s (x.toNat + 1))))

end Sys2Proof.Machine
end

