-- ==== Sys2Proof/Machine/Timers.lean ====
section
/-!
DEFINITION. The meanings of 45_timers_keypad.md: the key skips, the key wait, the timer moves.
-/

namespace Sys2Proof.Machine

/-- SKP Vx, Ex9E (R191). -/
def execSkp (x : Nibble) (s : State) : Host.Outcome State Fault Refusal := keySkip (.skp x) x true s

/-- SKNP Vx, ExA1 (R192). -/
def execSknp (x : Nibble) (s : State) : Host.Outcome State Fault Refusal := keySkip (.sknp x) x false s

/-- LD Vx, DT, Fx07 (R193): DT before this cycle's decrement. -/
def execLdVxDt (x : Nibble) (s : State) : Host.Outcome State Fault Refusal :=
  .next (nextInstr (setReg s x s.dt))

/-- LD Vx, K, Fx0A (R194): with no key pressed the cycle completes and PC stays. -/
def execLdVxK (x : Nibble) (s : State) : Host.Outcome State Fault Refusal :=
  match leastKey s with
  | some k => .next (nextInstr (setReg s x (BitVec.ofNat 8 k)))
  | none => .next s

/-- LD DT, Vx, Fx15 (R195). -/
def execLdDtVx (x : Nibble) (s : State) : Host.Outcome State Fault Refusal :=
  .next (nextInstr (setDelay s (reg s x)))

/-- LD ST, Vx, Fx18 (R196). -/
def execLdStVx (x : Nibble) (s : State) : Host.Outcome State Fault Refusal :=
  .next (nextInstr (setSound s (reg s x)))

end Sys2Proof.Machine
end

