-- ==== Sys2Proof/Machine/Step.lean ====
section
/-!
DEFINITION. One step of the CPU: one cycle (R90). A halted CPU has none (R98).
-/

namespace Sys2Proof.Machine

/-- `Cycle()` (R90): fetch, decode, execute, the end of the cycle. -/
def step (s : State) : Host.Outcome State Fault Refusal :=
  if s.halted then .fault (.halted s.fault)
  else
    match fetchDecode s with
    | .faulted t => .next t
    | .instr i =>
      match exec i s with
      | .next t => .next (endCycle i t)
      | .fault r => .fault r
      | .refused r => .refused r

/-- `s` with the instruction whose bits are `w` (as spec/opcode_table.json numbers them) stored at PC, high byte first,
and with the CPU not halted, so that the next step runs it (log 7). Where PC has no room for two bytes nothing is
stored: no step can fetch there (R91). -/
def State.withFetchWord (s : State) (nbits w : Nat) : State :=
  let op : Word := BitVec.ofNat 16 (w % 2 ^ min nbits 16)
  let ready : State := if s.halted then { s with halted := false, fault := none } else s
  if 0xFFF < s.pc.toNat + 1 then ready else storeBytes ready s.pc.toNat [highByte op, lowByte op]

end Sys2Proof.Machine
end

