-- ==== Sys2Proof/Machine/Ports.lean ====
section
/-!
DEFINITION. What the host does to the block between two cycles, and what it reads (60_exceptions.md R226 to R231,
41_display.md R108 and R109, 70_reset_and_hazards.md R240 and R242).
-/

namespace Sys2Proof.Machine

/-- The errors a host operation reports; none halts the CPU (R217). -/
inductive HostError where
  /-- LoadProgram of 0 bytes. -/
  | romEmpty
  /-- LoadProgram of more than 3583 bytes. -/
  | romTooLarge
  /-- `Get` outside the grid. -/
  | pixelRange
  deriving DecidableEq, Repr

/-- The reset state with `FONT` as an argument (R5, U12): its bytes at 0x050 to 0x09F (R35). `State.reset` is the one of
the default FONT. -/
def State.resetWith (fontBytes : Vector Byte 80) : State :=
  { State.reset with mem := Memory.writeBytes [] Config.fontBase fontBytes.toList }

/-- `Reset()` of a block whose parameter `FONT` is `fontBytes` (R5, U12), issued at a boundary, halted or not (R240,
R241). Every element of the spec takes its reset value; the model's draw counter goes on, so that draws after Reset are
fresh (R153; log 2). -/
def hostReset (fontBytes : Vector Byte 80) (s : State) : State := { State.resetWith fontBytes with draws := s.draws }

/-- `LoadProgram(rom)` (R242): the error is the port `load_error` (R226). -/
def loadProgram (rom : List Byte) (s : State) : Except HostError State :=
  if rom.length = 0 then .error .romEmpty
  else if Config.romMax < rom.length then .error .romTooLarge
  else .ok (storeBytes s Config.progBase rom)

/-- The host overwrites all 16 entries of KEY (R228). -/
def setKeys (keys : Vector Bool 16) (s : State) : State := { s with key := keys }

/-- `Get(col, row)` (R108). -/
def getPixel (s : State) (col row : Nat) : Except HostError Bool :=
  if col < 64 ∧ row < 32 then .ok (pixel s.fb row col) else .error .pixelRange

/-- `ToPackedColor(buffer, channelScales)` (R109): byte `3 * (row * 64 + col) + ch` is the pixel times `scale[ch]`. -/
def toPackedColor (s : State) (scale : Vector Byte 3) : Vector Byte 6144 :=
  Vector.ofFn fun k =>
    bitByte (pixel s.fb (k.val / 3 / 64) (k.val / 3 % 64)) * scale[k.val % 3]'(Nat.mod_lt _ (by decide))

end Sys2Proof.Machine
end

