-- ==== Sys2Proof/Machine/System.lean ====
section
/-!
DEFINITION. The block with its host: the host's actions, each atomic and between two cycles (R60, R223, R231), and what
a sequence of them makes of a state.
-/

namespace Sys2Proof.Machine

/-- What the host may do at a cycle boundary that can change the block (R231). Reading a frame and Stop change nothing
(R227, R230) and need no action. -/
inductive Action where
  /-- Run Reset (R240). -/
  | reset
  /-- Run LoadProgram (R242). -/
  | load (rom : List Byte)
  /-- Overwrite KEY (R228). -/
  | keys (k : Vector Bool 16)
  /-- Issue one cycle (R90). -/
  | cycle
  deriving DecidableEq, Repr

/-- The machine whose parameter `FONT` is `fontBytes` (R5, U12); `Sys2Proof.core` is the one of the default FONT. -/
def coreWith (fontBytes : Vector Byte 80) : Host.Core := { Sys2Proof.core with reset := State.resetWith fontBytes }

/-- The state after an action, for a block whose parameter `FONT` is `fontBytes`; only Reset reads it. A failed load changes nothing (R217, R242), and a cycle issued while halted has no
effect (R231). -/
def act (fontBytes : Vector Byte 80) : Action → State → State
  | .reset, s => hostReset fontBytes s
  | .load rom, s =>
    match loadProgram rom s with
    | .ok t => t
    | .error _ => s
  | .keys k, s => setKeys k s
  | .cycle, s =>
    match step s with
    | .next t => t
    | .fault _ => s
    | .refused _ => s

/-- The state after a sequence of host actions on a block with one `FONT`, first action first. -/
def runActions (fontBytes : Vector Byte 80) : List Action → State → State
  | [], s => s
  | a :: as, s => runActions fontBytes as (act fontBytes a s)

end Sys2Proof.Machine
end

