-- ==== Sys2Proof/Safety.lean ====
section
/-!
DEFINITION. The terms the claims use: the parts of the state and what is left unchanged, the halted state of a fault,
which fault records are legal, and the invariant of the machine.
-/

namespace Sys2Proof.Machine

/-- The parts of the state a frame speaks of. -/
inductive Part where
  | regs | pc | index | sp | stack | delayTimer | soundTimer | keypad | memory | display | faults | outputs | draws
  deriving DecidableEq, Repr

/-- A part reads the same in `t` as in `s`; memory byte by byte. -/
def unchanged (s t : State) : Part → Prop
  | .regs => ∀ r, reg t r = reg s r
  | .pc => t.pc = s.pc
  | .index => t.i = s.i
  | .sp => t.sp = s.sp
  | .stack => t.stack = s.stack
  | .delayTimer => t.dt = s.dt
  | .soundTimer => t.st = s.st
  | .keypad => t.key = s.key
  | .memory => ∀ a, readByte t a = readByte s a
  | .display => t.fb = s.fb
  | .faults => t.halted = s.halted ∧ t.fault = s.fault
  | .outputs => t.frameChanged = s.frameChanged ∧ t.soundExpired = s.soundExpired
  | .draws => t.draws = s.draws

/-- Nothing but the listed parts changes from `s` to `t`. -/
def onlyChanges (parts : List Part) (s t : State) : Prop := ∀ p, p ∉ parts → unchanged s t p

/-- Every register but the listed ones keeps its value. -/
def regsKept (written : List Nibble) (s t : State) : Prop := ∀ r, r ∉ written → reg t r = reg s r

/-- `w` is the word of `i` and the decoder reads `i` from it. -/
def encodedAs (i : Instr) (w : Word) : Prop := encode i = w ∧ decodeWord w = some i

/-- The state a fault leaves (R214): everything as before the cycle, but `halted` and `fault`. -/
def haltedWith (s : State) (r : FaultRecord) : State := { s with halted := true, fault := some r }

/-- The "raised by" column of R211 for the causes an instruction raises itself. -/
def raises : Cause → Instr → Bool
  | .memRange, .drw _ _ _ => true
  | .memRange, .ldBVx _ => true
  | .memRange, .ldMemVx _ => true
  | .memRange, .ldVxMem _ => true
  | .stackOverflow, .call _ => true
  | .stackUnderflow, .ret => true
  | .keyRange, .skp _ => true
  | .keyRange, .sknp _ => true
  | _, _ => false

/-- The address or key index of a record, where R212 gives it one: above 0xFFF for MEM_RANGE, a byte above 0xF for
KEY_RANGE, absent for the other causes. -/
def addrLegal : Cause → Option Nat → Bool
  | .memRange, some a => decide (0xFFF < a)
  | .keyRange, some k => decide (0xF < k) && decide (k < 256)
  | .illegalOpcode, none => true
  | .fetchRange, none => true
  | .stackOverflow, none => true
  | .stackUnderflow, none => true
  | _, _ => false

/-- The opcode of a record (R211, R212): absent for FETCH_RANGE, without a table entry for ILLEGAL_OPCODE, and for the
other causes the word of an instruction that raises the cause. -/
def opcodeLegal (cause : Cause) : Option Word → Bool
  | none => cause == .fetchRange
  | some op =>
    match decodeWord op with
    | none => cause == .illegalOpcode
    | some i => raises cause i

/-- The PC of a record (R91, R212): a PC that cannot be fetched for FETCH_RANGE, one that can for the other causes. -/
def pcLegal (cause : Cause) (pc : Word) : Bool := (cause == .fetchRange) == decide (0xFFF ≤ pc.toNat)

/-- A record that R211 and R212 allow. -/
def legalRecord (r : FaultRecord) : Bool := addrLegal r.cause r.addr && opcodeLegal r.cause r.opcode && pcLegal r.cause r.pc

/-- What the held fault says of the state: none while running, and a legal record whose PC is the PC while halted
(R212, R214). -/
def faultLegal (s : State) : Bool :=
  match s.fault with
  | none => !s.halted
  | some r => s.halted && legalRecord r && r.pc == s.pc

/-- The invariant of the machine: the memory is in its canonical form, inside the 4096 bytes, and the fault is legal. -/
def invHolds (s : State) : Bool := Memory.wf s.mem && faultLegal s

/-- The invariant as a proposition. -/
abbrev StateInv (s : State) : Prop := invHolds s = true

/-- The next cycle runs instruction `i`: the CPU is not halted, the fetch is inside memory, and the two bytes at PC,
high byte first, are a word of `i` (R90 to R92). -/
def runsNext (s : State) (i : Instr) : Prop :=
  s.halted = false ∧ s.pc.toNat + 1 ≤ 0xFFF ∧
    decodeWord (wordOfBytes (readByte s s.pc.toNat) (readByte s (s.pc.toNat + 1))) = some i

/-- A 1 bit of the sprite of `Dxyn` lies over the pixel at `row`, `col`: bit `7 - c` of the byte at `I + r`, drawn at
row `Vy + r`, column `Vx + c`, exact sums (R102, R106). -/
def spriteCovers (s : State) (x y n : Nibble) (row col : Nat) : Prop :=
  ∃ r c, r < n.toNat ∧ c < 8 ∧ (readByte s (s.i.toNat + r)).getLsbD (7 - c) = true ∧
    row = (reg s y).toNat + r ∧ col = (reg s x).toNat + c

/-- The registers an instruction may write, as destination or as flag (R22, R72). -/
def destinations : Instr → List Nibble
  | .ldImm x _ | .addImm x _ | .ldReg x _ | .or x _ | .and x _ | .xor x _ | .rnd x _ | .ldVxDt x | .ldVxK x => [x]
  | .addReg x _ | .sub x _ | .shr x _ | .subn x _ | .shl x _ => [x, vF]
  | .drw _ _ _ => [vF]
  | .ldVxMem x => (List.range (x.toNat + 1)).map (BitVec.ofNat 4)
  | .cls | .ret | .jp _ | .call _ | .seImm _ _ | .sneImm _ _ | .seReg _ _ | .sneReg _ _ | .ldI _ | .jpV0 _ => []
  | .skp _ | .sknp _ | .ldDtVx _ | .ldStVx _ | .addIVx _ | .ldFVx _ | .ldBVx _ | .ldMemVx _ => []

/-- The parts of the state, besides PC and a fault's `halted` and `fault`, that an instruction may change: the writers
10_state.md, 20_memory.md and 41_display.md list for each element (R22, R26 to R32, R57, R100). -/
def writesParts : Instr → List Part
  | .cls => [.display]
  | .ret => [.sp]
  | .call _ => [.sp, .stack]
  | .drw _ _ _ => [.display, .regs]
  | .ldI _ | .addIVx _ | .ldFVx _ => [.index]
  | .ldBVx _ | .ldMemVx _ => [.memory]
  | .ldDtVx _ => [.delayTimer]
  | .ldStVx _ => [.soundTimer]
  | .rnd _ _ => [.regs, .draws]
  | .ldImm _ _ | .addImm _ _ | .ldReg _ _ | .or _ _ | .and _ _ | .xor _ _ | .addReg _ _ | .sub _ _ | .shr _ _ => [.regs]
  | .subn _ _ | .shl _ _ | .ldVxDt _ | .ldVxK _ | .ldVxMem _ => [.regs]
  | .jp _ | .jpV0 _ | .seImm _ _ | .sneImm _ _ | .seReg _ _ | .sneReg _ _ | .skp _ | .sknp _ => []

/-- The six skip instructions (R24, R120). -/
def isSkip : Instr → Bool
  | .seImm _ _ | .sneImm _ _ | .seReg _ _ | .sneReg _ _ | .skp _ | .sknp _ => true
  | .cls | .ret | .jp _ | .call _ | .ldImm _ _ | .addImm _ _ | .ldReg _ _ | .or _ _ | .and _ _ | .xor _ _ => false
  | .addReg _ _ | .sub _ _ | .shr _ _ | .subn _ _ | .shl _ _ | .ldI _ | .jpV0 _ | .rnd _ _ | .drw _ _ _ => false
  | .ldVxDt _ | .ldVxK _ | .ldDtVx _ | .ldStVx _ | .addIVx _ | .ldFVx _ | .ldBVx _ | .ldMemVx _ | .ldVxMem _ => false

/-- The instructions that read the keypad (R31). -/
def readsKeypad : Instr → Bool
  | .skp _ | .sknp _ | .ldVxK _ => true
  | .cls | .ret | .jp _ | .call _ | .seImm _ _ | .sneImm _ _ | .seReg _ _ | .ldImm _ _ | .addImm _ _ => false
  | .ldReg _ _ | .or _ _ | .and _ _ | .xor _ _ | .addReg _ _ | .sub _ _ | .shr _ _ | .subn _ _ | .shl _ _ => false
  | .sneReg _ _ | .ldI _ | .jpV0 _ | .rnd _ _ | .drw _ _ _ | .ldVxDt _ | .ldDtVx _ | .ldStVx _ | .addIVx _ => false
  | .ldFVx _ | .ldBVx _ | .ldMemVx _ | .ldVxMem _ => false

/-- The instructions that write VF as a flag (R22). -/
def writesFlag : Instr → Bool
  | .addReg _ _ | .sub _ _ | .shr _ _ | .subn _ _ | .shl _ _ | .drw _ _ _ => true
  | .cls | .ret | .jp _ | .call _ | .seImm _ _ | .sneImm _ _ | .seReg _ _ | .ldImm _ _ | .addImm _ _ => false
  | .ldReg _ _ | .or _ _ | .and _ _ | .xor _ _ | .sneReg _ _ | .ldI _ | .jpV0 _ | .rnd _ _ | .skp _ | .sknp _ => false
  | .ldVxDt _ | .ldVxK _ | .ldDtVx _ | .ldStVx _ | .addIVx _ | .ldFVx _ | .ldBVx _ | .ldMemVx _ | .ldVxMem _ => false

end Sys2Proof.Machine
end

