-- ==== Sys2Proof/Certificates/Slice0/Obligations.lean ====
section
/-!
DEFINITION. The statements for the provers. Each docstring names the rule of spec/ the statement formalises.
-/

open Sys2Proof Sys2Proof.Machine

/-! ## Encoding and decode (30_encoding.md) -/

/-- Decode and encode agree (R71, R74, R76): every instruction, with every operand at every value, is read back from its
own word, and from its own two bytes with whatever bytes follow. That the field `y` of SHR and SHL, which selects nothing
(R78), is an operand that is read back is the model's choice (log 6). -/
def Obligations.DecodeReadsBackEveryEncoding : Prop :=
  ∀ (i : Instr) (rest : List Byte),
    decodeWord (encode i) = some i ∧ decode (encodeBytes i ++ rest) = .ok (i, rest)

/-- The other direction: a word that decodes is the word of the instruction it decodes to, so no bit of a word is dropped.
For 8xy6 and 8xyE the clause is the model's own choice, not a rule: to the spec the words that differ in `y` alone are one
operation (R78), and the statement holds of them because `shr` and `shl` keep the field that selects nothing (log 6,
DESIGN CHOICE). -/
def Obligations.EncodeRebuildsEveryDecodedWord : Prop :=
  ∀ (op : Word) (i : Instr), decodeWord op = some i → encode i = op

/-- R74 and R79: `decode(op)` is the row with `op & mask == match`, NoEntry when there is none, and at most one row
matches any opcode. -/
def Obligations.AtMostOneRowMatchesAnOpcode : Prop :=
  (∀ (op : Word) (r₁ r₂ : Row), r₁ ∈ opcodeTable → r₂ ∈ opcodeTable →
      op &&& r₁.mask = r₁.pattern → op &&& r₂.mask = r₂.pattern → r₁ = r₂) ∧
  (∀ (op : Word) (r : Row), r ∈ opcodeTable → op &&& r.mask = r.pattern → decodeWord op = some (r.operands op)) ∧
  (∀ op : Word, (∀ r ∈ opcodeTable, op &&& r.mask ≠ r.pattern) → decodeWord op = none)

/-- R76 row by row, with the fields of R71: the mask and match of each of the 34 rows select its instruction. -/
def Obligations.OpcodeTableSelectsEachInstruction : Prop :=
  ∀ op : Word,
    let x := op.extractLsb' 8 4
    let y := op.extractLsb' 4 4
    let n := op.extractLsb' 0 4
    let kk := op.extractLsb' 0 8
    let nnn := op.extractLsb' 0 12
    (op = 0x00E0 → decodeWord op = some .cls) ∧
    (op = 0x00EE → decodeWord op = some .ret) ∧
    (op &&& 0xF000 = 0x1000 → decodeWord op = some (.jp nnn)) ∧
    (op &&& 0xF000 = 0x2000 → decodeWord op = some (.call nnn)) ∧
    (op &&& 0xF000 = 0x3000 → decodeWord op = some (.seImm x kk)) ∧
    (op &&& 0xF000 = 0x4000 → decodeWord op = some (.sneImm x kk)) ∧
    (op &&& 0xF00F = 0x5000 → decodeWord op = some (.seReg x y)) ∧
    (op &&& 0xF000 = 0x6000 → decodeWord op = some (.ldImm x kk)) ∧
    (op &&& 0xF000 = 0x7000 → decodeWord op = some (.addImm x kk)) ∧
    (op &&& 0xF00F = 0x8000 → decodeWord op = some (.ldReg x y)) ∧
    (op &&& 0xF00F = 0x8001 → decodeWord op = some (.or x y)) ∧
    (op &&& 0xF00F = 0x8002 → decodeWord op = some (.and x y)) ∧
    (op &&& 0xF00F = 0x8003 → decodeWord op = some (.xor x y)) ∧
    (op &&& 0xF00F = 0x8004 → decodeWord op = some (.addReg x y)) ∧
    (op &&& 0xF00F = 0x8005 → decodeWord op = some (.sub x y)) ∧
    (op &&& 0xF00F = 0x8006 → decodeWord op = some (.shr x y)) ∧
    (op &&& 0xF00F = 0x8007 → decodeWord op = some (.subn x y)) ∧
    (op &&& 0xF00F = 0x800E → decodeWord op = some (.shl x y)) ∧
    (op &&& 0xF00F = 0x9000 → decodeWord op = some (.sneReg x y)) ∧
    (op &&& 0xF000 = 0xA000 → decodeWord op = some (.ldI nnn)) ∧
    (op &&& 0xF000 = 0xB000 → decodeWord op = some (.jpV0 nnn)) ∧
    (op &&& 0xF000 = 0xC000 → decodeWord op = some (.rnd x kk)) ∧
    (op &&& 0xF000 = 0xD000 → decodeWord op = some (.drw x y n)) ∧
    (op &&& 0xF0FF = 0xE09E → decodeWord op = some (.skp x)) ∧
    (op &&& 0xF0FF = 0xE0A1 → decodeWord op = some (.sknp x)) ∧
    (op &&& 0xF0FF = 0xF007 → decodeWord op = some (.ldVxDt x)) ∧
    (op &&& 0xF0FF = 0xF00A → decodeWord op = some (.ldVxK x)) ∧
    (op &&& 0xF0FF = 0xF015 → decodeWord op = some (.ldDtVx x)) ∧
    (op &&& 0xF0FF = 0xF018 → decodeWord op = some (.ldStVx x)) ∧
    (op &&& 0xF0FF = 0xF01E → decodeWord op = some (.addIVx x)) ∧
    (op &&& 0xF0FF = 0xF029 → decodeWord op = some (.ldFVx x)) ∧
    (op &&& 0xF0FF = 0xF033 → decodeWord op = some (.ldBVx x)) ∧
    (op &&& 0xF0FF = 0xF055 → decodeWord op = some (.ldMemVx x)) ∧
    (op &&& 0xF0FF = 0xF065 → decodeWord op = some (.ldVxMem x))

/-- The illegal set of R77, family by family; every other word decodes. -/
def Obligations.OpcodesWithoutEntryAreExactlyTheListed : Prop :=
  ∀ op : Word,
    let msn := op.extractLsb' 12 4
    let lsn := op.extractLsb' 0 4
    let lsb := op.extractLsb' 0 8
    decodeWord op = none ↔
      (msn = 0x0#4 ∧ op ≠ 0x00E0 ∧ op ≠ 0x00EE) ∨
      (msn = 0x5#4 ∧ lsn ≠ 0) ∨
      (msn = 0x8#4 ∧ lsn ∈ [0x8#4, 0x9#4, 0xA#4, 0xB#4, 0xC#4, 0xD#4, 0xF#4]) ∨
      (msn = 0x9#4 ∧ lsn ≠ 0) ∨
      (msn = 0xE#4 ∧ lsb ∉ [0x9E#8, 0xA1#8]) ∨
      (msn = 0xF#4 ∧ lsb ∉ [0x07#8, 0x0A#8, 0x15#8, 0x18#8, 0x1E#8, 0x29#8, 0x33#8, 0x55#8, 0x65#8])

/-- One word of each family, written out from its encoding, and two words with no entry (R76, R77). -/
def Obligations.SampleWordsDecodeAsTheTableSays : Prop :=
  decodeWord 0xD125 = some (.drw 1 2 5) ∧ decodeWord 0x220C = some (.call 0x20C) ∧
  decodeWord 0x8014 = some (.addReg 0 1) ∧ decodeWord 0xF233 = some (.ldBVx 2) ∧
  decodeWord 0xE29E = some (.skp 2) ∧ decodeWord 0x01E0 = none ∧ decodeWord 0x8128 = none

/-! ## The cycle and its faults (40_cycle.md, 60_exceptions.md) -/

/-- A step runs the decoded instruction (R90): when the two bytes at PC decode to `i`, the step is `exec i` and then the
end of the cycle around it. -/
def Obligations.StepRunsTheDecodedInstruction : Prop :=
  ∀ (s : State) (i : Instr), runsNext s i →
    step s = match exec i s with
      | .next t => .next (endCycle i t)
      | .fault r => .fault r
      | .refused r => .refused r

/-- R91: the opcode is `MEM[PC] * 256 + MEM[PC + 1]`, at any PC below 0xFFF, even or odd; at any other PC the cycle raises
FETCH_RANGE, recording PC and no opcode. -/
def Obligations.FetchIsBigEndianAndRangeChecked : Prop :=
  ∀ s : State, s.halted = false →
    (s.pc.toNat < 0xFFF → ∀ (op : Word) (i : Instr),
      op.toNat = (readByte s s.pc.toNat).toNat * 256 + (readByte s (s.pc.toNat + 1)).toNat →
      decodeWord op = some i → fetchDecode s = .instr i) ∧
    (0xFFF ≤ s.pc.toNat → step s = .next (haltedWith s ⟨.fetchRange, s.pc, none, none⟩))

/-- R92: NoEntry raises ILLEGAL_OPCODE, recording the opcode and PC. -/
def Obligations.IllegalOpcodeHaltsWithOpcodeAndPc : Prop :=
  ∀ (s : State) (op : Word), s.halted = false → s.pc.toNat < 0xFFF →
    op.toNat = (readByte s s.pc.toNat).toNat * 256 + (readByte s (s.pc.toNat + 1)).toNat →
    decodeWord op = none →
    step s = .next (haltedWith s ⟨.illegalOpcode, s.pc, some op, none⟩)

/-- R212 and R214: a cycle that raises a fault changes nothing but `halted` and `fault`; the record holds the PC of the
cycle, the fetched opcode (absent for FETCH_RANGE), and an address only for MEM_RANGE and KEY_RANGE; after it the CPU
has no step. -/
def Obligations.FaultEntryIsPrecise : Prop :=
  ∀ s t : State, step s = .next t → t.halted = true →
    ∃ r : FaultRecord, t = haltedWith s r ∧ r.pc = s.pc ∧
      r.opcode = (if r.cause = .fetchRange then none
        else some (wordOfBytes (readByte s s.pc.toNat) (readByte s (s.pc.toNat + 1)))) ∧
      (r.addr ≠ none ↔ r.cause = .memRange ∨ r.cause = .keyRange) ∧
      ∀ u, step t ≠ .next u

/-- R98 and R215, for any FONT: a halted CPU has no step; whatever the host does but Reset, it stays halted with its fault record, and
no register, timer, stack entry, pixel or output changes; Reset makes a cycle possible again. -/
def Obligations.OnlyResetEndsTheHaltedState : Prop :=
  ∀ (fontBytes : Vector Byte 80) (s : State), s.halted = true →
    (∀ t, step s ≠ .next t) ∧ act fontBytes .cycle s = s ∧
    (∀ as : List Action, .reset ∉ as →
      (runActions fontBytes as s).halted = true ∧ onlyChanges [.memory, .keypad] s (runActions fontBytes as s)) ∧
    (act fontBytes .reset s).halted = false ∧ (act fontBytes .reset s).fault = none

/-- R94 to R97: the end of a completed cycle. `t` is what the instruction left; the timers it left count down once, the
pulse is 1 iff ST went from 1 to 0, `frame_changed` is 1 iff the instruction is CLS or DRW, and nothing else changes. A
faulting cycle changes neither timer nor output. -/
def Obligations.CycleEndCountsTimersAndSetsOutputs : Prop :=
  (∀ (s t : State) (i : Instr), runsNext s i → exec i s = .next t → t.halted = false →
    ∃ u, step s = .next u ∧
      (u.frameChanged = true ↔ i = .cls ∨ ∃ x y n, i = .drw x y n) ∧
      u.dt.toNat = t.dt.toNat - 1 ∧ u.st.toNat = t.st.toNat - 1 ∧
      (u.soundExpired = true ↔ t.st.toNat = 1) ∧
      onlyChanges [.delayTimer, .soundTimer, .outputs] t u) ∧
  (∀ s u : State, step s = .next u → u.halted = true →
    u.frameChanged = s.frameChanged ∧ u.soundExpired = s.soundExpired ∧ u.dt = s.dt ∧ u.st = s.st)

/-- R90 over every state: a CPU that is not halted always completes a cycle, with its effect or with a fault entry; no
instruction, opcode or address leaves it without a next state. -/
def Obligations.EveryRunningCycleHasANextState : Prop :=
  ∀ s : State, s.halted = false → ∃ t, step s = .next t

/-! ## Display (41_display.md) -/

/-- R101 and R105: CLS turns every pixel off, and changes nothing else but PC; its cycle sets `frame_changed`, whatever
the pixels were. -/
def Obligations.ClsTurnsEveryPixelOff : Prop :=
  encodedAs .cls 0x00E0 ∧
  ∀ s : State, ∃ t, exec .cls s = .next t ∧
    (∀ row col, pixel t.fb row col = false) ∧ t.pc = s.pc + 2 ∧ onlyChanges [.display, .pc] s t ∧
    (runsNext s .cls → ∃ u, step s = .next u ∧ u.frameChanged = true)

/-- R106: DRW inverts exactly the pixels of the grid under the 1 bits of the `n` bytes at `I`, at the column and row `Vx`
and `Vy` held at the start, and VF ends as 1 iff a pixel went from 1 to 0; with a sprite byte above 0xFFF it raises
MEM_RANGE with the lowest such address and changes nothing. A cycle that draws sets `frame_changed`, for `n` = 0 too. -/
def Obligations.DrwXorsTheSpriteAndSetsCollision : Prop :=
  ∀ (x y n : Nibble) (s : State),
    encodedAs (.drw x y n) (0xD000#16 ||| x.setWidth 16 <<< 8 ||| y.setWidth 16 <<< 4 ||| n.setWidth 16) ∧
    (n.toNat = 0 ∨ s.i.toNat + n.toNat ≤ 0x1000 →
      ∃ t, exec (.drw x y n) s = .next t ∧
        (∀ row col, row < 32 → col < 64 →
          (spriteCovers s x y n row col → pixel t.fb row col = !pixel s.fb row col) ∧
          (¬spriteCovers s x y n row col → pixel t.fb row col = pixel s.fb row col)) ∧
        ((∃ row col, row < 32 ∧ col < 64 ∧ pixel s.fb row col = true ∧ pixel t.fb row col = false) → reg t vF = 1) ∧
        ((¬∃ row col, row < 32 ∧ col < 64 ∧ pixel s.fb row col = true ∧ pixel t.fb row col = false) → reg t vF = 0) ∧
        t.pc = s.pc + 2 ∧ regsKept [vF] s t ∧ onlyChanges [.regs, .display, .pc] s t ∧
        (runsNext s (.drw x y n) → ∃ u, step s = .next u ∧ u.frameChanged = true)) ∧
    (n.toNat ≠ 0 → 0x1000 < s.i.toNat + n.toNat →
      exec (.drw x y n) s = .next (haltedWith s ⟨.memRange, s.pc,
        some (0xD000#16 ||| x.setWidth 16 <<< 8 ||| y.setWidth 16 <<< 4 ||| n.setWidth 16),
        some (max s.i.toNat 0x1000)⟩))

/-- R102 to R104: `CompositeSprite` for any corner and any number of rows: a pixel of the grid is inverted iff a sprite
bit 1 lies over it, the collision is 1 iff a pixel went from 1 to 0, and a corner outside the grid draws nothing. -/
def Obligations.CompositeSpriteClipsAndReportsCollision : Prop :=
  ∀ (fb : Frame) (x y : Nat) (sprite : List Byte),
    let drawn := compositeSprite fb x y sprite
    (∀ row col, row < 32 → col < 64 →
      (pixel drawn.1 row col = !pixel fb row col ↔ ∃ r, ∃ h : r < sprite.length, ∃ c, c < 8 ∧
        (sprite[r]'h).getLsbD (7 - c) = true ∧ row = y + r ∧ col = x + c)) ∧
    (drawn.2 = true ↔ ∃ row col, row < 32 ∧ col < 64 ∧ pixel fb row col = true ∧ pixel drawn.1 row col = false) ∧
    (64 ≤ x ∨ 32 ≤ y → drawn = (fb, false))

/-- The first half of R107: a sprite drawn twice at one place leaves the grid as it was. The second draw collides iff
the first turned a pixel on; R107's words in brackets say more than R102 gives and are not claimed (log 10). -/
def Obligations.DrawingASpriteTwiceRestoresTheFrame : Prop :=
  ∀ (fb : Frame) (x y : Nat) (sprite : List Byte),
    let first := compositeSprite fb x y sprite
    let second := compositeSprite first.1 x y sprite
    second.1 = fb ∧
    (second.2 = true ↔ ∃ row col, row < 32 ∧ col < 64 ∧ pixel fb row col = false ∧ pixel first.1 row col = true)

/-- R108: the host's `Get` returns the pixel inside the grid and PIXEL_RANGE outside. -/
def Obligations.GetReadsThePixelOrReportsPixelRange : Prop :=
  ∀ (s : State) (col row : Nat),
    (∀ (hr : row < 32) (hc : col < 64), getPixel s col row = .ok ((s.fb[row]'hr)[col]'hc)) ∧
    (64 ≤ col ∨ 32 ≤ row → getPixel s col row = .error .pixelRange)

/-- R109: byte `3 * (row * 64 + col) + ch` of the packed buffer is `scale[ch]` for a set pixel, else 0. -/
def Obligations.PackedColorScalesEachPixelByChannel : Prop :=
  ∀ (s : State) (scale : Vector Byte 3) (row col ch : Nat) (hr : row < 32) (hc : col < 64) (hch : ch < 3),
    (toPackedColor s scale)[3 * (row * 64 + col) + ch]'(by omega) =
      if (s.fb[row]'hr)[col]'hc = true then scale[ch]'hch else 0

/-! ## Control transfer (42_control_flow.md) -/

/-- R123 and R131: JP goes to `nnn`, JP_V0 to `V0 + nnn`, neither masked nor checked; nothing else changes. -/
def Obligations.JumpsGoToTheirTargets : Prop :=
  ∀ (nnn : Addr12) (s : State),
    encodedAs (.jp nnn) (0x1000#16 ||| nnn.setWidth 16) ∧ encodedAs (.jpV0 nnn) (0xB000#16 ||| nnn.setWidth 16) ∧
    (∃ t, exec (.jp nnn) s = .next t ∧ t.pc.toNat = nnn.toNat ∧ onlyChanges [.pc] s t) ∧
    (∃ t, exec (.jpV0 nnn) s = .next t ∧ t.pc.toNat = (reg s 0).toNat + nnn.toNat ∧ onlyChanges [.pc] s t)

/-- R121: CALL pushes the address of the next instruction and jumps; on a full stack it raises STACK_OVERFLOW. -/
def Obligations.CallPushesTheNextAddressOrOverflows : Prop :=
  ∀ (nnn : Addr12) (s : State),
    encodedAs (.call nnn) (0x2000#16 ||| nnn.setWidth 16) ∧
    (s.sp.val < 16 → ∃ t, exec (.call nnn) s = .next t ∧
      (∀ j (hj : j < 16), t.stack[j] = if j = s.sp.val then s.pc + 2 else s.stack[j]) ∧
      t.sp.val = s.sp.val + 1 ∧ t.pc.toNat = nnn.toNat ∧ onlyChanges [.stack, .sp, .pc] s t) ∧
    (s.sp.val = 16 → exec (.call nnn) s =
      .next (haltedWith s ⟨.stackOverflow, s.pc, some (0x2000#16 ||| nnn.setWidth 16), none⟩))

/-- R122: RET pops its target, which the stack keeps; on an empty stack it raises STACK_UNDERFLOW. -/
def Obligations.RetPopsItsTargetOrUnderflows : Prop :=
  encodedAs .ret 0x00EE ∧
  ∀ s : State,
    (∀ h : 0 < s.sp.val, ∃ t, exec .ret s = .next t ∧
      t.pc = s.stack[s.sp.val - 1]'(by omega) ∧ t.sp.val = s.sp.val - 1 ∧ onlyChanges [.sp, .pc] s t) ∧
    (s.sp.val = 0 → exec .ret s = .next (haltedWith s ⟨.stackUnderflow, s.pc, some 0x00EE, none⟩))

/-- R129: after a CALL at `A`, a RET reached with `SP` and the pushed entry as the CALL left them sets PC to `A + 2`. -/
def Obligations.RetReturnsAfterItsCall : Prop :=
  ∀ (nnn : Addr12) (s t u : State) (h : s.sp.val < 16), exec (.call nnn) s = .next t →
    u.sp = t.sp → u.stack[s.sp.val] = t.stack[s.sp.val] →
    ∃ w, exec .ret u = .next w ∧ w.pc = s.pc + 2 ∧ w.sp = s.sp

/-- R124 and R125: SE_IMM skips iff `Vx = kk`, SNE_IMM iff not; only PC changes. -/
def Obligations.ImmediateSkipsCompareTheRegister : Prop :=
  ∀ (x : Nibble) (kk : Byte) (s : State),
    encodedAs (.seImm x kk) (0x3000#16 ||| x.setWidth 16 <<< 8 ||| kk.setWidth 16) ∧
    encodedAs (.sneImm x kk) (0x4000#16 ||| x.setWidth 16 <<< 8 ||| kk.setWidth 16) ∧
    (∃ t, exec (.seImm x kk) s = .next t ∧ onlyChanges [.pc] s t ∧
      t.pc = if reg s x = kk then s.pc + 4 else s.pc + 2) ∧
    (∃ t, exec (.sneImm x kk) s = .next t ∧ onlyChanges [.pc] s t ∧
      t.pc = if reg s x = kk then s.pc + 2 else s.pc + 4)

/-- R126 and R127: SE_REG skips iff `Vx = Vy`, SNE_REG iff not; only PC changes. With a last nibble other than 0 neither
word is an instruction. -/
def Obligations.RegisterSkipsCompareTheRegisters : Prop :=
  ∀ (x y : Nibble) (s : State),
    encodedAs (.seReg x y) (0x5000#16 ||| x.setWidth 16 <<< 8 ||| y.setWidth 16 <<< 4) ∧
    encodedAs (.sneReg x y) (0x9000#16 ||| x.setWidth 16 <<< 8 ||| y.setWidth 16 <<< 4) ∧
    (∀ n : Nibble, n ≠ 0 →
      decodeWord (0x5000#16 ||| x.setWidth 16 <<< 8 ||| y.setWidth 16 <<< 4 ||| n.setWidth 16) = none ∧
      decodeWord (0x9000#16 ||| x.setWidth 16 <<< 8 ||| y.setWidth 16 <<< 4 ||| n.setWidth 16) = none) ∧
    (∃ t, exec (.seReg x y) s = .next t ∧ onlyChanges [.pc] s t ∧
      t.pc = if reg s x = reg s y then s.pc + 4 else s.pc + 2) ∧
    (∃ t, exec (.sneReg x y) s = .next t ∧ onlyChanges [.pc] s t ∧
      t.pc = if reg s x = reg s y then s.pc + 2 else s.pc + 4)

/-- R128: a skip taken at PC 0xFFC or above sets PC to 0x1000 or more, one not taken at 0xFFD or 0xFFE to 0xFFF or 0x1000;
neither is a fault itself, and the next cycle raises FETCH_RANGE. -/
def Obligations.SkippingPastTheEndFaultsAtTheNextFetch : Prop :=
  ∀ (s t : State) (i : Instr), isSkip i = true → runsNext s i → step s = .next t → t.halted = false →
    (t.pc = s.pc + 4 → 0xFFC ≤ s.pc.toNat →
      0x1000 ≤ t.pc.toNat ∧ step t = .next (haltedWith t ⟨.fetchRange, t.pc, none, none⟩)) ∧
    (t.pc = s.pc + 2 → 0xFFD ≤ s.pc.toNat →
      (t.pc = 0xFFF ∨ t.pc = 0x1000) ∧ step t = .next (haltedWith t ⟨.fetchRange, t.pc, none, none⟩))

/-! ## ALU (43_alu.md) -/

/-- R141 and R143: LD_IMM writes `kk`, LD_REG copies `Vy`, into `Vx`; no flag. -/
def Obligations.RegisterLoadsWriteTheirOperand : Prop :=
  ∀ (x y : Nibble) (kk : Byte) (s : State),
    encodedAs (.ldImm x kk) (0x6000#16 ||| x.setWidth 16 <<< 8 ||| kk.setWidth 16) ∧
    encodedAs (.ldReg x y) (0x8000#16 ||| x.setWidth 16 <<< 8 ||| y.setWidth 16 <<< 4) ∧
    (∃ t, exec (.ldImm x kk) s = .next t ∧ reg t x = kk ∧ t.pc = s.pc + 2 ∧
      regsKept [x] s t ∧ onlyChanges [.regs, .pc] s t) ∧
    (∃ t, exec (.ldReg x y) s = .next t ∧ reg t x = reg s y ∧ t.pc = s.pc + 2 ∧
      regsKept [x] s t ∧ onlyChanges [.regs, .pc] s t)

/-- R142: ADD_IMM adds modulo 256 and writes no flag. -/
def Obligations.AddImmediateWrapsWithoutAFlag : Prop :=
  ∀ (x : Nibble) (kk : Byte) (s : State),
    encodedAs (.addImm x kk) (0x7000#16 ||| x.setWidth 16 <<< 8 ||| kk.setWidth 16) ∧
    ∃ t, exec (.addImm x kk) s = .next t ∧ (reg t x).toNat = ((reg s x).toNat + kk.toNat) % 256 ∧
      t.pc = s.pc + 2 ∧ regsKept [x] s t ∧ onlyChanges [.regs, .pc] s t

/-- R144 to R146: OR, AND and XOR bit by bit; VF is not reset. -/
def Obligations.LogicActsBitByBitWithoutAFlag : Prop :=
  ∀ (x y : Nibble) (s : State),
    encodedAs (.or x y) (0x8001#16 ||| x.setWidth 16 <<< 8 ||| y.setWidth 16 <<< 4) ∧
    encodedAs (.and x y) (0x8002#16 ||| x.setWidth 16 <<< 8 ||| y.setWidth 16 <<< 4) ∧
    encodedAs (.xor x y) (0x8003#16 ||| x.setWidth 16 <<< 8 ||| y.setWidth 16 <<< 4) ∧
    (∃ t, exec (.or x y) s = .next t ∧
      (∀ k, (reg t x).getLsbD k = ((reg s x).getLsbD k || (reg s y).getLsbD k)) ∧
      t.pc = s.pc + 2 ∧ regsKept [x] s t ∧ onlyChanges [.regs, .pc] s t) ∧
    (∃ t, exec (.and x y) s = .next t ∧
      (∀ k, (reg t x).getLsbD k = ((reg s x).getLsbD k && (reg s y).getLsbD k)) ∧
      t.pc = s.pc + 2 ∧ regsKept [x] s t ∧ onlyChanges [.regs, .pc] s t) ∧
    (∃ t, exec (.xor x y) s = .next t ∧
      (∀ k, (reg t x).getLsbD k = ((reg s x).getLsbD k != (reg s y).getLsbD k)) ∧
      t.pc = s.pc + 2 ∧ regsKept [x] s t ∧ onlyChanges [.regs, .pc] s t)

/-- R148: ADD_REG writes the sum modulo 256 into `Vx` and then the carry into VF, so VF ends as the carry when `x` is
0xF too (R140). -/
def Obligations.AddRegisterSetsCarryLast : Prop :=
  ∀ (x y : Nibble) (s : State),
    encodedAs (.addReg x y) (0x8004#16 ||| x.setWidth 16 <<< 8 ||| y.setWidth 16 <<< 4) ∧
    ∃ t, exec (.addReg x y) s = .next t ∧
      (x ≠ vF → (reg t x).toNat = ((reg s x).toNat + (reg s y).toNat) % 256) ∧
      (reg t vF = if 255 < (reg s x).toNat + (reg s y).toNat then 1 else 0) ∧
      t.pc = s.pc + 2 ∧ regsKept [x, vF] s t ∧ onlyChanges [.regs, .pc] s t

/-- R149 and R151: SUB and SUBN subtract modulo 256 and then set VF to 1 iff the minuend is strictly greater. -/
def Obligations.SubtractionsSetStrictlyGreaterLast : Prop :=
  ∀ (x y : Nibble) (s : State),
    encodedAs (.sub x y) (0x8005#16 ||| x.setWidth 16 <<< 8 ||| y.setWidth 16 <<< 4) ∧
    encodedAs (.subn x y) (0x8007#16 ||| x.setWidth 16 <<< 8 ||| y.setWidth 16 <<< 4) ∧
    (∃ t, exec (.sub x y) s = .next t ∧
      (x ≠ vF → (reg t x).toNat = ((reg s x).toNat + 256 - (reg s y).toNat) % 256) ∧
      (reg t vF = if (reg s y).toNat < (reg s x).toNat then 1 else 0) ∧
      t.pc = s.pc + 2 ∧ regsKept [x, vF] s t ∧ onlyChanges [.regs, .pc] s t) ∧
    (∃ t, exec (.subn x y) s = .next t ∧
      (x ≠ vF → (reg t x).toNat = ((reg s y).toNat + 256 - (reg s x).toNat) % 256) ∧
      (reg t vF = if (reg s x).toNat < (reg s y).toNat then 1 else 0) ∧
      t.pc = s.pc + 2 ∧ regsKept [x, vF] s t ∧ onlyChanges [.regs, .pc] s t)

/-- R150 and R152: SHR and SHL shift `Vx` by one, whatever `y` is, and then set VF to the bit shifted out. -/
def Obligations.ShiftsSetTheBitShiftedOutLast : Prop :=
  ∀ (x y : Nibble) (s : State),
    encodedAs (.shr x y) (0x8006#16 ||| x.setWidth 16 <<< 8 ||| y.setWidth 16 <<< 4) ∧
    encodedAs (.shl x y) (0x800E#16 ||| x.setWidth 16 <<< 8 ||| y.setWidth 16 <<< 4) ∧
    (∃ t, exec (.shr x y) s = .next t ∧
      (x ≠ vF → (reg t x).toNat = (reg s x).toNat / 2) ∧
      (reg t vF).toNat = (reg s x).toNat % 2 ∧
      t.pc = s.pc + 2 ∧ regsKept [x, vF] s t ∧ onlyChanges [.regs, .pc] s t) ∧
    (∃ t, exec (.shl x y) s = .next t ∧
      (x ≠ vF → (reg t x).toNat = (reg s x).toNat * 2 % 256) ∧
      (reg t vF).toNat = (reg s x).toNat / 128 ∧
      t.pc = s.pc + 2 ∧ regsKept [x, vF] s t ∧ onlyChanges [.regs, .pc] s t)

/-- R153: RND writes a random byte masked by `kk`. That the byte is the draw number `draws` of the free value
`Config.rand8`, and that the draw is consumed, is the model's form of "one fresh draw" (log 2). -/
def Obligations.RndMasksOneFreshDraw : Prop :=
  ∀ (x : Nibble) (kk : Byte) (s : State),
    encodedAs (.rnd x kk) (0xC000#16 ||| x.setWidth 16 <<< 8 ||| kk.setWidth 16) ∧
    ∃ t, exec (.rnd x kk) s = .next t ∧
      (∀ k, (reg t x).getLsbD k = ((Config.rand8 s.draws).getLsbD k && kk.getLsbD k)) ∧
      t.draws = s.draws + 1 ∧
      t.pc = s.pc + 2 ∧ regsKept [x] s t ∧ onlyChanges [.regs, .pc, .draws] s t

/-- R21 and R22: after each instruction that writes a flag, and did not fault, VF is 0 or 1, also when VF is its
destination. -/
def Obligations.FlagInstructionsLeaveABitInVF : Prop :=
  ∀ (i : Instr) (s t : State), writesFlag i = true → exec i s = .next t → t.halted = false →
    reg t vF = 0 ∨ reg t vF = 1

/-! ## Index and memory (44_index_memory.md) -/

/-- R170 to R172: LD_I, ADD_I_VX (16-bit, no flag) and LD_F_VX (the whole byte) write I. -/
def Obligations.IndexWritersSetI : Prop :=
  ∀ (nnn : Addr12) (x : Nibble) (s : State),
    encodedAs (.ldI nnn) (0xA000#16 ||| nnn.setWidth 16) ∧
    encodedAs (.addIVx x) (0xF01E#16 ||| x.setWidth 16 <<< 8) ∧
    encodedAs (.ldFVx x) (0xF029#16 ||| x.setWidth 16 <<< 8) ∧
    (∃ t, exec (.ldI nnn) s = .next t ∧ t.i.toNat = nnn.toNat ∧ t.pc = s.pc + 2 ∧ onlyChanges [.index, .pc] s t) ∧
    (∃ t, exec (.addIVx x) s = .next t ∧ t.i.toNat = (s.i.toNat + (reg s x).toNat) % 65536 ∧
      t.pc = s.pc + 2 ∧ onlyChanges [.index, .pc] s t) ∧
    (∃ t, exec (.ldFVx x) s = .next t ∧ t.i.toNat = 0x050 + 5 * (reg s x).toNat ∧
      t.pc = s.pc + 2 ∧ onlyChanges [.index, .pc] s t)

/-- R173: LD_B_VX stores the hundreds, tens and ones of `Vx` at `I`, `I + 1`, `I + 2`; past 0xFFF it raises MEM_RANGE. -/
def Obligations.BcdStoresThreeDigits : Prop :=
  ∀ (x : Nibble) (s : State),
    encodedAs (.ldBVx x) (0xF033#16 ||| x.setWidth 16 <<< 8) ∧
    (s.i.toNat + 2 ≤ 0xFFF → ∃ t, exec (.ldBVx x) s = .next t ∧
      (readByte t s.i.toNat).toNat = (reg s x).toNat / 100 ∧
      (readByte t (s.i.toNat + 1)).toNat = (reg s x).toNat / 10 % 10 ∧
      (readByte t (s.i.toNat + 2)).toNat = (reg s x).toNat % 10 ∧
      (∀ a, a < s.i.toNat ∨ s.i.toNat + 2 < a → readByte t a = readByte s a) ∧
      t.pc = s.pc + 2 ∧ onlyChanges [.memory, .pc] s t) ∧
    (0xFFF < s.i.toNat + 2 → exec (.ldBVx x) s = .next (haltedWith s
      ⟨.memRange, s.pc, some (0xF033#16 ||| x.setWidth 16 <<< 8), some (max s.i.toNat 0x1000)⟩))

/-- R174: LD_MEM_VX stores V0 to `Vx` at `I` to `I + x`, leaves I, and past 0xFFF raises MEM_RANGE with nothing stored. -/
def Obligations.StoreRegistersWritesV0ToVx : Prop :=
  ∀ (x : Nibble) (s : State),
    encodedAs (.ldMemVx x) (0xF055#16 ||| x.setWidth 16 <<< 8) ∧
    (s.i.toNat + x.toNat ≤ 0xFFF → ∃ t, exec (.ldMemVx x) s = .next t ∧
      (∀ r : Nibble, r.toNat ≤ x.toNat → readByte t (s.i.toNat + r.toNat) = reg s r) ∧
      (∀ a, a < s.i.toNat ∨ s.i.toNat + x.toNat < a → readByte t a = readByte s a) ∧
      t.pc = s.pc + 2 ∧ onlyChanges [.memory, .pc] s t) ∧
    (0xFFF < s.i.toNat + x.toNat → exec (.ldMemVx x) s = .next (haltedWith s
      ⟨.memRange, s.pc, some (0xF055#16 ||| x.setWidth 16 <<< 8), some (max s.i.toNat 0x1000)⟩))

/-- R175: LD_VX_MEM loads V0 to `Vx` from `I` to `I + x`, leaves I and the registers above `Vx`, and past 0xFFF raises
MEM_RANGE with no register written. -/
def Obligations.LoadRegistersReadsV0ToVx : Prop :=
  ∀ (x : Nibble) (s : State),
    encodedAs (.ldVxMem x) (0xF065#16 ||| x.setWidth 16 <<< 8) ∧
    (s.i.toNat + x.toNat ≤ 0xFFF → ∃ t, exec (.ldVxMem x) s = .next t ∧
      (∀ r : Nibble, r.toNat ≤ x.toNat → reg t r = readByte s (s.i.toNat + r.toNat)) ∧
      (∀ r : Nibble, x.toNat < r.toNat → reg t r = reg s r) ∧
      t.pc = s.pc + 2 ∧ onlyChanges [.regs, .pc] s t) ∧
    (0xFFF < s.i.toNat + x.toNat → exec (.ldVxMem x) s = .next (haltedWith s
      ⟨.memRange, s.pc, some (0xF065#16 ||| x.setWidth 16 <<< 8), some (max s.i.toNat 0x1000)⟩))

/-- R176: over all instructions, only LD_I, ADD_I_VX and LD_F_VX write I, modulo 2^16; the transfers leave it. -/
def Obligations.OnlyThreeInstructionsWriteI : Prop :=
  ∀ (i : Instr) (s t : State), exec i s = .next t →
    t.i.toNat = match i with
      | .ldI nnn => nnn.toNat
      | .addIVx x => (s.i.toNat + (reg s x).toNat) % 65536
      | .ldFVx x => (0x050 + 5 * (reg s x).toNat) % 65536
      | _ => s.i.toNat

/-- R55 and R62: two registers stored over the next two program bytes are the next opcode, the first one its high byte. -/
def Obligations.StoredBytesAreTheNextOpcode : Prop :=
  ∀ (s : State) (x k : Nibble), runsNext s (.ldMemVx x) → s.i.toNat + x.toNat ≤ 0xFFF →
    k.toNat + 1 ≤ x.toNat → s.i.toNat + k.toNat = s.pc.toNat + 2 →
    ∃ u, step s = .next u ∧ u.pc = s.pc + 2 ∧
      wordOfBytes (readByte u u.pc.toNat) (readByte u (u.pc.toNat + 1)) = wordOfBytes (reg s k) (reg s (k + 1))

/-! ## Timers and keypad (45_timers_keypad.md) -/

/-- R190 to R192: SKP skips iff key `Vx` is pressed, SKNP iff it is not; a `Vx` above 0xF raises KEY_RANGE. -/
def Obligations.KeySkipsTestTheKeyOrRaiseKeyRange : Prop :=
  ∀ (x : Nibble) (s : State),
    encodedAs (.skp x) (0xE09E#16 ||| x.setWidth 16 <<< 8) ∧ encodedAs (.sknp x) (0xE0A1#16 ||| x.setWidth 16 <<< 8) ∧
    (∀ h : (reg s x).toNat < 16,
      (∃ t, exec (.skp x) s = .next t ∧ onlyChanges [.pc] s t ∧
        t.pc = if s.key[(reg s x).toNat] = true then s.pc + 4 else s.pc + 2) ∧
      (∃ t, exec (.sknp x) s = .next t ∧ onlyChanges [.pc] s t ∧
        t.pc = if s.key[(reg s x).toNat] = true then s.pc + 2 else s.pc + 4)) ∧
    (0xF < (reg s x).toNat →
      exec (.skp x) s = .next (haltedWith s
        ⟨.keyRange, s.pc, some (0xE09E#16 ||| x.setWidth 16 <<< 8), some (reg s x).toNat⟩) ∧
      exec (.sknp x) s = .next (haltedWith s
        ⟨.keyRange, s.pc, some (0xE0A1#16 ||| x.setWidth 16 <<< 8), some (reg s x).toNat⟩))

/-- R194: LD_VX_K takes the least pressed key and goes on; with none pressed it holds PC and changes nothing, and its
cycle, which completes, counts both timers down and reports no changed frame. -/
def Obligations.KeyWaitTakesTheLeastKeyOrHoldsPc : Prop :=
  ∀ (x : Nibble) (s : State),
    encodedAs (.ldVxK x) (0xF00A#16 ||| x.setWidth 16 <<< 8) ∧
    (∀ k (hk : k < 16), s.key[k] = true → (∀ j (hj : j < k), s.key[j] = false) →
      ∃ t, exec (.ldVxK x) s = .next t ∧ (reg t x).toNat = k ∧ t.pc = s.pc + 2 ∧
        regsKept [x] s t ∧ onlyChanges [.regs, .pc] s t) ∧
    ((∀ k (hk : k < 16), s.key[k] = false) → ∃ t, exec (.ldVxK x) s = .next t ∧ t.pc = s.pc ∧ onlyChanges [] s t ∧
      (runsNext s (.ldVxK x) → ∃ u, step s = .next u ∧ u.pc = s.pc ∧ u.halted = false ∧ u.frameChanged = false ∧
        u.dt.toNat = s.dt.toNat - 1 ∧ u.st.toNat = s.st.toNat - 1))

/-- R194, R197 with R95 and R96: with no key pressed, any number of cycles leaves PC at the Fx0A, the CPU not halted and
all else as it was, while both timers count down once a cycle; Reset abandons the wait at 0x200. -/
def Obligations.KeyWaitHoldsUntilAKeyIsPressed : Prop :=
  ∀ (fontBytes : Vector Byte 80) (s : State) (x : Nibble) (n : Nat),
    runsNext s (.ldVxK x) → (∀ k (hk : k < 16), s.key[k] = false) →
    let u := runActions fontBytes (List.replicate n .cycle) s
    runsNext u (.ldVxK x) ∧ u.pc = s.pc ∧ u.dt.toNat = s.dt.toNat - n ∧ u.st.toNat = s.st.toNat - n ∧
    onlyChanges [.delayTimer, .soundTimer, .outputs] s u ∧ (act fontBytes .reset u).pc = 0x200

/-- R193, R195, R196: Fx07 reads DT, Fx15 writes DT, Fx18 writes ST; the decrement of the same cycle follows, and an Fx18
that writes 1 raises the pulse in its own cycle. -/
def Obligations.TimerMovesCopyTheByte : Prop :=
  ∀ (x : Nibble) (s : State),
    encodedAs (.ldVxDt x) (0xF007#16 ||| x.setWidth 16 <<< 8) ∧
    encodedAs (.ldDtVx x) (0xF015#16 ||| x.setWidth 16 <<< 8) ∧
    encodedAs (.ldStVx x) (0xF018#16 ||| x.setWidth 16 <<< 8) ∧
    (∃ t, exec (.ldVxDt x) s = .next t ∧ reg t x = s.dt ∧ t.pc = s.pc + 2 ∧
      regsKept [x] s t ∧ onlyChanges [.regs, .pc] s t) ∧
    (∃ t, exec (.ldDtVx x) s = .next t ∧ t.dt = reg s x ∧ t.pc = s.pc + 2 ∧ onlyChanges [.delayTimer, .pc] s t) ∧
    (∃ t, exec (.ldStVx x) s = .next t ∧ t.st = reg s x ∧ t.pc = s.pc + 2 ∧ onlyChanges [.soundTimer, .pc] s t) ∧
    (runsNext s (.ldVxDt x) → ∃ u, step s = .next u ∧ reg u x = s.dt ∧ u.dt.toNat = s.dt.toNat - 1) ∧
    (runsNext s (.ldDtVx x) → ∃ u, step s = .next u ∧ u.dt.toNat = (reg s x).toNat - 1) ∧
    (runsNext s (.ldStVx x) → ∃ u, step s = .next u ∧ u.st.toNat = (reg s x).toNat - 1 ∧
      (u.soundExpired = true ↔ (reg s x).toNat = 1))

/-- R245: a value Fx15 writes into DT is read one lower (0 stays 0) by an Fx07 in the next cycle. -/
def Obligations.DelayTimerReadsBackOneLower : Prop :=
  ∀ (s t : State) (x y : Nibble), runsNext s (.ldDtVx x) → step s = .next t → runsNext t (.ldVxDt y) →
    ∃ u, step t = .next u ∧ (reg u y).toNat = (reg s x).toNat - 1 ∧ u.dt.toNat = (reg s x).toNat - 2

/-! ## The whole machine -/

/-- R24: the new PC of every instruction that raised no fault. -/
def Obligations.EveryInstructionMovesPcByItsRule : Prop :=
  ∀ (i : Instr) (s t : State), exec i s = .next t → t.halted = false →
    t.pc = match i with
      | .jp nnn | .call nnn => nnn.setWidth 16
      | .jpV0 nnn => (reg s 0).setWidth 16 + nnn.setWidth 16
      | .ret => s.stack.toList.getD (s.sp.val - 1) 0
      | .seImm x kk => if reg s x = kk then s.pc + 4 else s.pc + 2
      | .sneImm x kk => if reg s x ≠ kk then s.pc + 4 else s.pc + 2
      | .seReg x y => if reg s x = reg s y then s.pc + 4 else s.pc + 2
      | .sneReg x y => if reg s x ≠ reg s y then s.pc + 4 else s.pc + 2
      | .skp x => if s.key.toList.getD (reg s x).toNat false = true then s.pc + 4 else s.pc + 2
      | .sknp x => if s.key.toList.getD (reg s x).toNat false = true then s.pc + 2 else s.pc + 4
      | .ldVxK _ => if true ∈ s.key.toList then s.pc + 2 else s.pc
      | _ => s.pc + 2

/-- Over all instructions, taking a fault or not: only the listed destinations of an instruction change among the
registers, only its listed parts (R22, R26 to R31, R57, R100), PC and the fault state change at all. So no instruction
writes the keypad, only CALL writes the stack, only CLS and DRW the framebuffer, only Fx33 and Fx55 memory. -/
def Obligations.EachInstructionChangesOnlyItsOwnParts : Prop :=
  ∀ (i : Instr) (s t : State), exec i s = .next t →
    regsKept (destinations i) s t ∧ onlyChanges (.pc :: .faults :: writesParts i) s t

/-- R31: only SKP, SKNP and LD_VX_K read the keypad. Any other instruction does the same whatever keys are pressed. -/
def Obligations.OtherInstructionsDoNotReadTheKeypad : Prop :=
  ∀ (i : Instr) (s t : State) (k : Vector Bool 16), readsKeypad i = false → exec i s = .next t →
    exec i (setKeys k s) = .next (setKeys k t)

/-- R29: no instruction reads ST. Two states that differ in ST only still differ in ST at most after any instruction. -/
def Obligations.NoInstructionReadsTheSoundTimer : Prop :=
  ∀ (i : Instr) (s t : State) (b : Byte), exec i s = .next t →
    ∃ u, exec i { s with st := b } = .next u ∧ { u with st := t.st } = t

/-- The memory's canonical form is one: two canonical memories that read the same at every address are equal data. -/
def Obligations.CanonicalMemoriesWithEqualBytesAreEqual : Prop :=
  ∀ m₁ m₂ : Memory, Memory.wf m₁ = true → Memory.wf m₂ = true →
    (∀ a, Memory.read m₁ a = Memory.read m₂ a) → m₁ = m₂

/-- The invariant holds after Reset, with the default FONT and with any other: canonical memory, no fault. -/
def Obligations.InvariantHoldsAtReset : Prop :=
  StateInv State.reset ∧ ∀ fontBytes : Vector Byte 80, StateInv (State.resetWith fontBytes)

/-- Every step keeps the invariant, from every state that meets it: the memory stays in its canonical form inside the
4096 bytes (R50), a running CPU holds no fault, and a halted one holds a record that R211 and R212 allow, with the PC of
the faulting instruction (R214). -/
def Obligations.EveryStepKeepsTheInvariant : Prop :=
  ∀ s t : State, StateInv s → step s = .next t → StateInv t

/-- Every sequence of host actions keeps the invariant, whatever FONT is: Reset, LoadProgram of any bytes, any keypad vectors, cycles, in
any order (R228, R231). -/
def Obligations.EveryHostSequenceKeepsTheInvariant : Prop :=
  ∀ (fontBytes : Vector Byte 80) (as : List Action) (s : State), StateInv s → StateInv (runActions fontBytes as s)

/-! ## Reset, loading and the host (70_reset_and_hazards.md, 60_exceptions.md) -/

/-- R35 and R240, with FONT as an argument (R5, U12): Reset, from any state, halted or not, leaves every element at the
value of the table. Two clauses are the model's and not a rule's: that Reset keeps the draw counter, which is the model's
own (log 2, DESIGN CHOICE), and the last ones, on `coreWith`, `State.resetWith` and `State.reset`, which say how the model
takes FONT as an argument beside a reset state of the default FONT (log 3, PRESUMED). -/
def Obligations.ResetSetsEveryElement : Prop :=
  ∀ fontBytes : Vector Byte 80,
  (∀ s : State,
    let t := act fontBytes .reset s
    (∀ x, reg t x = 0) ∧ t.pc = 0x200 ∧ t.i = 0 ∧ t.sp = 0 ∧ (∀ j (hj : j < 16), t.stack[j] = 0) ∧
    t.dt = 0 ∧ t.st = 0 ∧ (∀ k (hk : k < 16), t.key[k] = false) ∧
    (∀ j (hj : j < 80), readByte t (0x050 + j) = fontBytes[j]) ∧ (∀ a, a < 0x050 ∨ 0x09F < a → readByte t a = 0) ∧
    (∀ row col, pixel t.fb row col = false) ∧
    t.halted = false ∧ t.fault = none ∧ t.frameChanged = false ∧ t.soundExpired = false ∧
    t = { State.resetWith fontBytes with draws := s.draws }) ∧
  (coreWith fontBytes).reset = State.resetWith fontBytes ∧
  (∀ j (hj : j < 80), readByte (State.resetWith fontBytes) (0x050 + j) = fontBytes[j]) ∧
  (∀ a, a < 0x050 ∨ 0x09F < a → readByte (State.resetWith fontBytes) a = 0) ∧
  onlyChanges [.memory] State.reset (State.resetWith fontBytes)

/-- The model's form of FONT (log 3, log 4): Reset with the default FONT listed byte by byte is the reset state, whose
memory lists nothing, so the machine of the default FONT is `Sys2Proof.core`. -/
def Obligations.ResetWithTheDefaultFontIsReset : Prop :=
  State.resetWith font = State.reset ∧ coreWith font = Sys2Proof.core

/-- R242: LoadProgram fails on 0 or more than 3583 bytes, and otherwise places byte `i` at `0x200 + i` and changes
nothing else. -/
def Obligations.LoadProgramPlacesTheRomOrFails : Prop :=
  ∀ (fontBytes : Vector Byte 80) (rom : List Byte) (s : State),
    (rom.length = 0 → loadProgram rom s = .error .romEmpty ∧ act fontBytes (.load rom) s = s) ∧
    (3583 < rom.length → loadProgram rom s = .error .romTooLarge ∧ act fontBytes (.load rom) s = s) ∧
    (1 ≤ rom.length → rom.length ≤ 3583 → ∃ t, loadProgram rom s = .ok t ∧ act fontBytes (.load rom) s = t ∧
      (∀ i (hi : i < rom.length), readByte t (0x200 + i) = rom[i]) ∧
      (∀ a, a < 0x200 ∨ 0x200 + rom.length ≤ a → readByte t a = readByte s a) ∧ onlyChanges [.memory] s t)

/-- The last sentence of R243, for the default FONT and for any other: a cycle before any LoadProgram executes the zeros
at 0x200 and halts. -/
def Obligations.CycleBeforeLoadHaltsOnZeroOpcode : Prop :=
  step State.reset = .next (haltedWith State.reset ⟨.illegalOpcode, 0x200, some 0x0000, none⟩) ∧
  ∀ fontBytes : Vector Byte 80, step (State.resetWith fontBytes) =
    .next (haltedWith (State.resetWith fontBytes) ⟨.illegalOpcode, 0x200, some 0x0000, none⟩)

/-- R228: a keypad write overwrites all 16 entries, with any vector, and nothing else. -/
def Obligations.KeypadWriteReplacesAllKeys : Prop :=
  ∀ (fontBytes : Vector Byte 80) (k : Vector Bool 16) (s : State),
    (act fontBytes (.keys k) s).key = k ∧ onlyChanges [.keypad] s (act fontBytes (.keys k) s)
end

