-- ==== Sys2Proof/Laws/Decode.lean ====
section
/-!
SUPPORT. What the masks of R73 and the fields of R71 read from the parts an encoding is assembled from.
-/

namespace Sys2Proof

/-! ## The masks on the parts of a word -/

@[simp] theorem atX_maskMsn (x : Nibble) : atX x &&& 0xF000#16 = 0#16 := by revert x; decide
@[simp] theorem atX_maskLsn (x : Nibble) : atX x &&& 0xF00F#16 = 0#16 := by revert x; decide
@[simp] theorem atX_maskLsb (x : Nibble) : atX x &&& 0xF0FF#16 = 0#16 := by revert x; decide
@[simp] theorem atY_maskMsn (y : Nibble) : atY y &&& 0xF000#16 = 0#16 := by revert y; decide
@[simp] theorem atY_maskLsn (y : Nibble) : atY y &&& 0xF00F#16 = 0#16 := by revert y; decide
@[simp] theorem n_maskMsn (n : Nibble) : n.setWidth 16 &&& 0xF000#16 = 0#16 := by revert n; decide
@[simp] theorem kk_maskMsn (kk : Byte) : kk.setWidth 16 &&& 0xF000#16 = 0#16 := by revert kk; decide

@[simp] theorem nnn_maskMsn (nnn : Addr12) : nnn.setWidth 16 &&& 0xF000#16 = 0#16 := by
  apply BitVec.eq_of_getLsbD_eq
  intro k hk
  simp only [BitVec.getLsbD_and, BitVec.getLsbD_setWidth]
  by_cases h : k < 12
  · interval_cases k <;> simp
  · simp [BitVec.getLsbD_of_ge nnn k (by omega)]

/-- A mask of a word assembled by OR is the OR of the masked parts. -/
theorem mask_or (a b m : Word) : (a ||| b) &&& m = (a &&& m) ||| (b &&& m) := by
  apply BitVec.eq_of_getLsbD_eq; intro k hk
  simp [Bool.and_or_distrib_right]

/-! ## The fields of the parts of a word -/

/-- A field of a word assembled by OR is the OR of the parts' fields. -/
theorem extract_or (a b : Word) (start len : Nat) :
    (a ||| b).extractLsb' start len = a.extractLsb' start len ||| b.extractLsb' start len := by
  apply BitVec.eq_of_getLsbD_eq; intro k hk; simp [hk]

@[simp] theorem fieldX_or (a b : Word) : fieldX (a ||| b) = fieldX a ||| fieldX b := extract_or a b _ _
@[simp] theorem fieldY_or (a b : Word) : fieldY (a ||| b) = fieldY a ||| fieldY b := extract_or a b _ _
@[simp] theorem fieldN_or (a b : Word) : fieldN (a ||| b) = fieldN a ||| fieldN b := extract_or a b _ _
@[simp] theorem fieldKk_or (a b : Word) : fieldKk (a ||| b) = fieldKk a ||| fieldKk b := extract_or a b _ _
@[simp] theorem fieldNnn_or (a b : Word) : fieldNnn (a ||| b) = fieldNnn a ||| fieldNnn b := extract_or a b _ _

@[simp] theorem fieldX_atX (x : Nibble) : fieldX (atX x) = x := by revert x; decide
@[simp] theorem fieldY_atX (x : Nibble) : fieldY (atX x) = 0#4 := by revert x; decide
@[simp] theorem fieldN_atX (x : Nibble) : fieldN (atX x) = 0#4 := by revert x; decide
@[simp] theorem fieldKk_atX (x : Nibble) : fieldKk (atX x) = 0#8 := by revert x; decide
@[simp] theorem fieldX_atY (y : Nibble) : fieldX (atY y) = 0#4 := by revert y; decide
@[simp] theorem fieldY_atY (y : Nibble) : fieldY (atY y) = y := by revert y; decide
@[simp] theorem fieldN_atY (y : Nibble) : fieldN (atY y) = 0#4 := by revert y; decide
@[simp] theorem fieldX_n (n : Nibble) : fieldX (n.setWidth 16) = 0#4 := by revert n; decide
@[simp] theorem fieldY_n (n : Nibble) : fieldY (n.setWidth 16) = 0#4 := by revert n; decide
@[simp] theorem fieldN_n (n : Nibble) : fieldN (n.setWidth 16) = n := by revert n; decide
@[simp] theorem fieldX_kk (kk : Byte) : fieldX (kk.setWidth 16) = 0#4 := by revert kk; decide
@[simp] theorem fieldKk_kk (kk : Byte) : fieldKk (kk.setWidth 16) = kk := by revert kk; decide

@[simp] theorem fieldNnn_nnn (nnn : Addr12) : fieldNnn (nnn.setWidth 16) = nnn := by
  apply BitVec.eq_of_getLsbD_eq
  intro k hk
  simp [fieldNnn, hk, show k < 16 by omega]

/-- The two bytes of a word make the word (R55). -/
@[simp] theorem wordOfBytes_high_low (op : Word) : wordOfBytes (highByte op) (lowByte op) = op := by
  apply BitVec.eq_of_getLsbD_eq
  intro k hk
  simp only [wordOfBytes, highByte, lowByte, BitVec.getLsbD_append, BitVec.getLsbD_extractLsb']
  by_cases h : k < 8
  · simp [h]
  · have e : 8 + (k - 8) = k := by omega
    simp [h, e]; omega

/-- `op = hi * 256 + lo` (R91). -/
theorem wordOfBytes_toNat (hi lo : Byte) : (wordOfBytes hi lo).toNat = hi.toNat * 256 + lo.toNat := by
  rw [wordOfBytes, BitVec.toNat_append, ← Nat.shiftLeft_add_eq_or_of_lt lo.isLt, Nat.shiftLeft_eq]

/-- Every instruction is well-formed: the operand types have the widths of the fields (R72). -/
theorem wellFormed_all (i : Instr) : i.wellFormed = true := by
  have h4 : ∀ v : Nibble, nibbleOk v.toNat = true := fun v => decide_eq_true v.isLt
  have h8 : ∀ v : Byte, byteOk v.toNat = true := fun v => decide_eq_true v.isLt
  have h12 : ∀ v : Addr12, addrOk v.toNat = true := fun v => decide_eq_true v.isLt
  cases i <;> simp [Instr.wellFormed, h4, h8, h12]

end Sys2Proof
end

