-- ==== Sys2Proof/Laws/State.lean ====
section
/-!
SUPPORT. One lemma per field per update of the state, so that no later proof unfolds a record update.
-/

namespace Sys2Proof.Machine

/-! ### setReg -/

@[simp] theorem setReg_v (s : State) (x : Nibble) (b : Byte) : (setReg s x b).v = s.v.set x.toNat b x.isLt := rfl
@[simp] theorem setReg_pc (s : State) (x : Nibble) (b : Byte) : (setReg s x b).pc = s.pc := rfl
@[simp] theorem setReg_i (s : State) (x : Nibble) (b : Byte) : (setReg s x b).i = s.i := rfl
@[simp] theorem setReg_sp (s : State) (x : Nibble) (b : Byte) : (setReg s x b).sp = s.sp := rfl
@[simp] theorem setReg_stack (s : State) (x : Nibble) (b : Byte) : (setReg s x b).stack = s.stack := rfl
@[simp] theorem setReg_dt (s : State) (x : Nibble) (b : Byte) : (setReg s x b).dt = s.dt := rfl
@[simp] theorem setReg_st (s : State) (x : Nibble) (b : Byte) : (setReg s x b).st = s.st := rfl
@[simp] theorem setReg_key (s : State) (x : Nibble) (b : Byte) : (setReg s x b).key = s.key := rfl
@[simp] theorem setReg_mem (s : State) (x : Nibble) (b : Byte) : (setReg s x b).mem = s.mem := rfl
@[simp] theorem setReg_fb (s : State) (x : Nibble) (b : Byte) : (setReg s x b).fb = s.fb := rfl
@[simp] theorem setReg_halted (s : State) (x : Nibble) (b : Byte) : (setReg s x b).halted = s.halted := rfl
@[simp] theorem setReg_fault (s : State) (x : Nibble) (b : Byte) : (setReg s x b).fault = s.fault := rfl
@[simp] theorem setReg_frameChanged (s : State) (x : Nibble) (b : Byte) : (setReg s x b).frameChanged = s.frameChanged := rfl
@[simp] theorem setReg_soundExpired (s : State) (x : Nibble) (b : Byte) : (setReg s x b).soundExpired = s.soundExpired := rfl
@[simp] theorem setReg_draws (s : State) (x : Nibble) (b : Byte) : (setReg s x b).draws = s.draws := rfl

/-! ### setRegFlag -/

@[simp] theorem setRegFlag_v (s : State) (x : Nibble) (b f : Byte) : (setRegFlag s x b f).v = (s.v.set x.toNat b x.isLt).set vF.toNat f vF.isLt := rfl
@[simp] theorem setRegFlag_pc (s : State) (x : Nibble) (b f : Byte) : (setRegFlag s x b f).pc = s.pc := rfl
@[simp] theorem setRegFlag_i (s : State) (x : Nibble) (b f : Byte) : (setRegFlag s x b f).i = s.i := rfl
@[simp] theorem setRegFlag_sp (s : State) (x : Nibble) (b f : Byte) : (setRegFlag s x b f).sp = s.sp := rfl
@[simp] theorem setRegFlag_stack (s : State) (x : Nibble) (b f : Byte) : (setRegFlag s x b f).stack = s.stack := rfl
@[simp] theorem setRegFlag_dt (s : State) (x : Nibble) (b f : Byte) : (setRegFlag s x b f).dt = s.dt := rfl
@[simp] theorem setRegFlag_st (s : State) (x : Nibble) (b f : Byte) : (setRegFlag s x b f).st = s.st := rfl
@[simp] theorem setRegFlag_key (s : State) (x : Nibble) (b f : Byte) : (setRegFlag s x b f).key = s.key := rfl
@[simp] theorem setRegFlag_mem (s : State) (x : Nibble) (b f : Byte) : (setRegFlag s x b f).mem = s.mem := rfl
@[simp] theorem setRegFlag_fb (s : State) (x : Nibble) (b f : Byte) : (setRegFlag s x b f).fb = s.fb := rfl
@[simp] theorem setRegFlag_halted (s : State) (x : Nibble) (b f : Byte) : (setRegFlag s x b f).halted = s.halted := rfl
@[simp] theorem setRegFlag_fault (s : State) (x : Nibble) (b f : Byte) : (setRegFlag s x b f).fault = s.fault := rfl
@[simp] theorem setRegFlag_frameChanged (s : State) (x : Nibble) (b f : Byte) : (setRegFlag s x b f).frameChanged = s.frameChanged := rfl
@[simp] theorem setRegFlag_soundExpired (s : State) (x : Nibble) (b f : Byte) : (setRegFlag s x b f).soundExpired = s.soundExpired := rfl
@[simp] theorem setRegFlag_draws (s : State) (x : Nibble) (b f : Byte) : (setRegFlag s x b f).draws = s.draws := rfl

/-! ### setIndex -/

@[simp] theorem setIndex_v (s : State) (w : Word) : (setIndex s w).v = s.v := rfl
@[simp] theorem setIndex_pc (s : State) (w : Word) : (setIndex s w).pc = s.pc := rfl
@[simp] theorem setIndex_i (s : State) (w : Word) : (setIndex s w).i = w := rfl
@[simp] theorem setIndex_sp (s : State) (w : Word) : (setIndex s w).sp = s.sp := rfl
@[simp] theorem setIndex_stack (s : State) (w : Word) : (setIndex s w).stack = s.stack := rfl
@[simp] theorem setIndex_dt (s : State) (w : Word) : (setIndex s w).dt = s.dt := rfl
@[simp] theorem setIndex_st (s : State) (w : Word) : (setIndex s w).st = s.st := rfl
@[simp] theorem setIndex_key (s : State) (w : Word) : (setIndex s w).key = s.key := rfl
@[simp] theorem setIndex_mem (s : State) (w : Word) : (setIndex s w).mem = s.mem := rfl
@[simp] theorem setIndex_fb (s : State) (w : Word) : (setIndex s w).fb = s.fb := rfl
@[simp] theorem setIndex_halted (s : State) (w : Word) : (setIndex s w).halted = s.halted := rfl
@[simp] theorem setIndex_fault (s : State) (w : Word) : (setIndex s w).fault = s.fault := rfl
@[simp] theorem setIndex_frameChanged (s : State) (w : Word) : (setIndex s w).frameChanged = s.frameChanged := rfl
@[simp] theorem setIndex_soundExpired (s : State) (w : Word) : (setIndex s w).soundExpired = s.soundExpired := rfl
@[simp] theorem setIndex_draws (s : State) (w : Word) : (setIndex s w).draws = s.draws := rfl

/-! ### setDelay -/

@[simp] theorem setDelay_v (s : State) (b : Byte) : (setDelay s b).v = s.v := rfl
@[simp] theorem setDelay_pc (s : State) (b : Byte) : (setDelay s b).pc = s.pc := rfl
@[simp] theorem setDelay_i (s : State) (b : Byte) : (setDelay s b).i = s.i := rfl
@[simp] theorem setDelay_sp (s : State) (b : Byte) : (setDelay s b).sp = s.sp := rfl
@[simp] theorem setDelay_stack (s : State) (b : Byte) : (setDelay s b).stack = s.stack := rfl
@[simp] theorem setDelay_dt (s : State) (b : Byte) : (setDelay s b).dt = b := rfl
@[simp] theorem setDelay_st (s : State) (b : Byte) : (setDelay s b).st = s.st := rfl
@[simp] theorem setDelay_key (s : State) (b : Byte) : (setDelay s b).key = s.key := rfl
@[simp] theorem setDelay_mem (s : State) (b : Byte) : (setDelay s b).mem = s.mem := rfl
@[simp] theorem setDelay_fb (s : State) (b : Byte) : (setDelay s b).fb = s.fb := rfl
@[simp] theorem setDelay_halted (s : State) (b : Byte) : (setDelay s b).halted = s.halted := rfl
@[simp] theorem setDelay_fault (s : State) (b : Byte) : (setDelay s b).fault = s.fault := rfl
@[simp] theorem setDelay_frameChanged (s : State) (b : Byte) : (setDelay s b).frameChanged = s.frameChanged := rfl
@[simp] theorem setDelay_soundExpired (s : State) (b : Byte) : (setDelay s b).soundExpired = s.soundExpired := rfl
@[simp] theorem setDelay_draws (s : State) (b : Byte) : (setDelay s b).draws = s.draws := rfl

/-! ### setSound -/

@[simp] theorem setSound_v (s : State) (b : Byte) : (setSound s b).v = s.v := rfl
@[simp] theorem setSound_pc (s : State) (b : Byte) : (setSound s b).pc = s.pc := rfl
@[simp] theorem setSound_i (s : State) (b : Byte) : (setSound s b).i = s.i := rfl
@[simp] theorem setSound_sp (s : State) (b : Byte) : (setSound s b).sp = s.sp := rfl
@[simp] theorem setSound_stack (s : State) (b : Byte) : (setSound s b).stack = s.stack := rfl
@[simp] theorem setSound_dt (s : State) (b : Byte) : (setSound s b).dt = s.dt := rfl
@[simp] theorem setSound_st (s : State) (b : Byte) : (setSound s b).st = b := rfl
@[simp] theorem setSound_key (s : State) (b : Byte) : (setSound s b).key = s.key := rfl
@[simp] theorem setSound_mem (s : State) (b : Byte) : (setSound s b).mem = s.mem := rfl
@[simp] theorem setSound_fb (s : State) (b : Byte) : (setSound s b).fb = s.fb := rfl
@[simp] theorem setSound_halted (s : State) (b : Byte) : (setSound s b).halted = s.halted := rfl
@[simp] theorem setSound_fault (s : State) (b : Byte) : (setSound s b).fault = s.fault := rfl
@[simp] theorem setSound_frameChanged (s : State) (b : Byte) : (setSound s b).frameChanged = s.frameChanged := rfl
@[simp] theorem setSound_soundExpired (s : State) (b : Byte) : (setSound s b).soundExpired = s.soundExpired := rfl
@[simp] theorem setSound_draws (s : State) (b : Byte) : (setSound s b).draws = s.draws := rfl

/-! ### setFrame -/

@[simp] theorem setFrame_v (s : State) (f : Frame) : (setFrame s f).v = s.v := rfl
@[simp] theorem setFrame_pc (s : State) (f : Frame) : (setFrame s f).pc = s.pc := rfl
@[simp] theorem setFrame_i (s : State) (f : Frame) : (setFrame s f).i = s.i := rfl
@[simp] theorem setFrame_sp (s : State) (f : Frame) : (setFrame s f).sp = s.sp := rfl
@[simp] theorem setFrame_stack (s : State) (f : Frame) : (setFrame s f).stack = s.stack := rfl
@[simp] theorem setFrame_dt (s : State) (f : Frame) : (setFrame s f).dt = s.dt := rfl
@[simp] theorem setFrame_st (s : State) (f : Frame) : (setFrame s f).st = s.st := rfl
@[simp] theorem setFrame_key (s : State) (f : Frame) : (setFrame s f).key = s.key := rfl
@[simp] theorem setFrame_mem (s : State) (f : Frame) : (setFrame s f).mem = s.mem := rfl
@[simp] theorem setFrame_fb (s : State) (f : Frame) : (setFrame s f).fb = f := rfl
@[simp] theorem setFrame_halted (s : State) (f : Frame) : (setFrame s f).halted = s.halted := rfl
@[simp] theorem setFrame_fault (s : State) (f : Frame) : (setFrame s f).fault = s.fault := rfl
@[simp] theorem setFrame_frameChanged (s : State) (f : Frame) : (setFrame s f).frameChanged = s.frameChanged := rfl
@[simp] theorem setFrame_soundExpired (s : State) (f : Frame) : (setFrame s f).soundExpired = s.soundExpired := rfl
@[simp] theorem setFrame_draws (s : State) (f : Frame) : (setFrame s f).draws = s.draws := rfl

/-! ### jumpTo -/

@[simp] theorem jumpTo_v (s : State) (w : Word) : (jumpTo s w).v = s.v := rfl
@[simp] theorem jumpTo_pc (s : State) (w : Word) : (jumpTo s w).pc = w := rfl
@[simp] theorem jumpTo_i (s : State) (w : Word) : (jumpTo s w).i = s.i := rfl
@[simp] theorem jumpTo_sp (s : State) (w : Word) : (jumpTo s w).sp = s.sp := rfl
@[simp] theorem jumpTo_stack (s : State) (w : Word) : (jumpTo s w).stack = s.stack := rfl
@[simp] theorem jumpTo_dt (s : State) (w : Word) : (jumpTo s w).dt = s.dt := rfl
@[simp] theorem jumpTo_st (s : State) (w : Word) : (jumpTo s w).st = s.st := rfl
@[simp] theorem jumpTo_key (s : State) (w : Word) : (jumpTo s w).key = s.key := rfl
@[simp] theorem jumpTo_mem (s : State) (w : Word) : (jumpTo s w).mem = s.mem := rfl
@[simp] theorem jumpTo_fb (s : State) (w : Word) : (jumpTo s w).fb = s.fb := rfl
@[simp] theorem jumpTo_halted (s : State) (w : Word) : (jumpTo s w).halted = s.halted := rfl
@[simp] theorem jumpTo_fault (s : State) (w : Word) : (jumpTo s w).fault = s.fault := rfl
@[simp] theorem jumpTo_frameChanged (s : State) (w : Word) : (jumpTo s w).frameChanged = s.frameChanged := rfl
@[simp] theorem jumpTo_soundExpired (s : State) (w : Word) : (jumpTo s w).soundExpired = s.soundExpired := rfl
@[simp] theorem jumpTo_draws (s : State) (w : Word) : (jumpTo s w).draws = s.draws := rfl

/-! ### nextInstr -/

@[simp] theorem nextInstr_v (s : State) : (nextInstr s).v = s.v := rfl
@[simp] theorem nextInstr_pc (s : State) : (nextInstr s).pc = s.pc + 2 := rfl
@[simp] theorem nextInstr_i (s : State) : (nextInstr s).i = s.i := rfl
@[simp] theorem nextInstr_sp (s : State) : (nextInstr s).sp = s.sp := rfl
@[simp] theorem nextInstr_stack (s : State) : (nextInstr s).stack = s.stack := rfl
@[simp] theorem nextInstr_dt (s : State) : (nextInstr s).dt = s.dt := rfl
@[simp] theorem nextInstr_st (s : State) : (nextInstr s).st = s.st := rfl
@[simp] theorem nextInstr_key (s : State) : (nextInstr s).key = s.key := rfl
@[simp] theorem nextInstr_mem (s : State) : (nextInstr s).mem = s.mem := rfl
@[simp] theorem nextInstr_fb (s : State) : (nextInstr s).fb = s.fb := rfl
@[simp] theorem nextInstr_halted (s : State) : (nextInstr s).halted = s.halted := rfl
@[simp] theorem nextInstr_fault (s : State) : (nextInstr s).fault = s.fault := rfl
@[simp] theorem nextInstr_frameChanged (s : State) : (nextInstr s).frameChanged = s.frameChanged := rfl
@[simp] theorem nextInstr_soundExpired (s : State) : (nextInstr s).soundExpired = s.soundExpired := rfl
@[simp] theorem nextInstr_draws (s : State) : (nextInstr s).draws = s.draws := rfl

/-! ### push -/

@[simp] theorem push_v (s : State) (w : Word) (h : s.sp.val < 16) : (push s w h).v = s.v := rfl
@[simp] theorem push_pc (s : State) (w : Word) (h : s.sp.val < 16) : (push s w h).pc = s.pc := rfl
@[simp] theorem push_i (s : State) (w : Word) (h : s.sp.val < 16) : (push s w h).i = s.i := rfl
@[simp] theorem push_sp (s : State) (w : Word) (h : s.sp.val < 16) : (push s w h).sp = ⟨s.sp.val + 1, by omega⟩ := rfl
@[simp] theorem push_stack (s : State) (w : Word) (h : s.sp.val < 16) : (push s w h).stack = s.stack.set s.sp.val w h := rfl
@[simp] theorem push_dt (s : State) (w : Word) (h : s.sp.val < 16) : (push s w h).dt = s.dt := rfl
@[simp] theorem push_st (s : State) (w : Word) (h : s.sp.val < 16) : (push s w h).st = s.st := rfl
@[simp] theorem push_key (s : State) (w : Word) (h : s.sp.val < 16) : (push s w h).key = s.key := rfl
@[simp] theorem push_mem (s : State) (w : Word) (h : s.sp.val < 16) : (push s w h).mem = s.mem := rfl
@[simp] theorem push_fb (s : State) (w : Word) (h : s.sp.val < 16) : (push s w h).fb = s.fb := rfl
@[simp] theorem push_halted (s : State) (w : Word) (h : s.sp.val < 16) : (push s w h).halted = s.halted := rfl
@[simp] theorem push_fault (s : State) (w : Word) (h : s.sp.val < 16) : (push s w h).fault = s.fault := rfl
@[simp] theorem push_frameChanged (s : State) (w : Word) (h : s.sp.val < 16) : (push s w h).frameChanged = s.frameChanged := rfl
@[simp] theorem push_soundExpired (s : State) (w : Word) (h : s.sp.val < 16) : (push s w h).soundExpired = s.soundExpired := rfl
@[simp] theorem push_draws (s : State) (w : Word) (h : s.sp.val < 16) : (push s w h).draws = s.draws := rfl

/-! ### pop -/

@[simp] theorem pop_v (s : State) (h : 0 < s.sp.val) : (pop s h).v = s.v := rfl
@[simp] theorem pop_pc (s : State) (h : 0 < s.sp.val) : (pop s h).pc = s.pc := rfl
@[simp] theorem pop_i (s : State) (h : 0 < s.sp.val) : (pop s h).i = s.i := rfl
@[simp] theorem pop_sp (s : State) (h : 0 < s.sp.val) : (pop s h).sp = ⟨s.sp.val - 1, by omega⟩ := rfl
@[simp] theorem pop_stack (s : State) (h : 0 < s.sp.val) : (pop s h).stack = s.stack := rfl
@[simp] theorem pop_dt (s : State) (h : 0 < s.sp.val) : (pop s h).dt = s.dt := rfl
@[simp] theorem pop_st (s : State) (h : 0 < s.sp.val) : (pop s h).st = s.st := rfl
@[simp] theorem pop_key (s : State) (h : 0 < s.sp.val) : (pop s h).key = s.key := rfl
@[simp] theorem pop_mem (s : State) (h : 0 < s.sp.val) : (pop s h).mem = s.mem := rfl
@[simp] theorem pop_fb (s : State) (h : 0 < s.sp.val) : (pop s h).fb = s.fb := rfl
@[simp] theorem pop_halted (s : State) (h : 0 < s.sp.val) : (pop s h).halted = s.halted := rfl
@[simp] theorem pop_fault (s : State) (h : 0 < s.sp.val) : (pop s h).fault = s.fault := rfl
@[simp] theorem pop_frameChanged (s : State) (h : 0 < s.sp.val) : (pop s h).frameChanged = s.frameChanged := rfl
@[simp] theorem pop_soundExpired (s : State) (h : 0 < s.sp.val) : (pop s h).soundExpired = s.soundExpired := rfl
@[simp] theorem pop_draws (s : State) (h : 0 < s.sp.val) : (pop s h).draws = s.draws := rfl

/-! ### enterFault -/

@[simp] theorem enterFault_v (s : State) (c : Cause) (op : Option Word) (a : Option Nat) : (enterFault s c op a).v = s.v := rfl
@[simp] theorem enterFault_pc (s : State) (c : Cause) (op : Option Word) (a : Option Nat) : (enterFault s c op a).pc = s.pc := rfl
@[simp] theorem enterFault_i (s : State) (c : Cause) (op : Option Word) (a : Option Nat) : (enterFault s c op a).i = s.i := rfl
@[simp] theorem enterFault_sp (s : State) (c : Cause) (op : Option Word) (a : Option Nat) : (enterFault s c op a).sp = s.sp := rfl
@[simp] theorem enterFault_stack (s : State) (c : Cause) (op : Option Word) (a : Option Nat) : (enterFault s c op a).stack = s.stack := rfl
@[simp] theorem enterFault_dt (s : State) (c : Cause) (op : Option Word) (a : Option Nat) : (enterFault s c op a).dt = s.dt := rfl
@[simp] theorem enterFault_st (s : State) (c : Cause) (op : Option Word) (a : Option Nat) : (enterFault s c op a).st = s.st := rfl
@[simp] theorem enterFault_key (s : State) (c : Cause) (op : Option Word) (a : Option Nat) : (enterFault s c op a).key = s.key := rfl
@[simp] theorem enterFault_mem (s : State) (c : Cause) (op : Option Word) (a : Option Nat) : (enterFault s c op a).mem = s.mem := rfl
@[simp] theorem enterFault_fb (s : State) (c : Cause) (op : Option Word) (a : Option Nat) : (enterFault s c op a).fb = s.fb := rfl
@[simp] theorem enterFault_halted (s : State) (c : Cause) (op : Option Word) (a : Option Nat) : (enterFault s c op a).halted = true := rfl
@[simp] theorem enterFault_fault (s : State) (c : Cause) (op : Option Word) (a : Option Nat) : (enterFault s c op a).fault = some ⟨c, s.pc, op, a⟩ := rfl
@[simp] theorem enterFault_frameChanged (s : State) (c : Cause) (op : Option Word) (a : Option Nat) : (enterFault s c op a).frameChanged = s.frameChanged := rfl
@[simp] theorem enterFault_soundExpired (s : State) (c : Cause) (op : Option Word) (a : Option Nat) : (enterFault s c op a).soundExpired = s.soundExpired := rfl
@[simp] theorem enterFault_draws (s : State) (c : Cause) (op : Option Word) (a : Option Nat) : (enterFault s c op a).draws = s.draws := rfl

/-! ### storeBytes -/

@[simp] theorem storeBytes_v (s : State) (a : Nat) (bs : List Byte) : (storeBytes s a bs).v = s.v := rfl
@[simp] theorem storeBytes_pc (s : State) (a : Nat) (bs : List Byte) : (storeBytes s a bs).pc = s.pc := rfl
@[simp] theorem storeBytes_i (s : State) (a : Nat) (bs : List Byte) : (storeBytes s a bs).i = s.i := rfl
@[simp] theorem storeBytes_sp (s : State) (a : Nat) (bs : List Byte) : (storeBytes s a bs).sp = s.sp := rfl
@[simp] theorem storeBytes_stack (s : State) (a : Nat) (bs : List Byte) : (storeBytes s a bs).stack = s.stack := rfl
@[simp] theorem storeBytes_dt (s : State) (a : Nat) (bs : List Byte) : (storeBytes s a bs).dt = s.dt := rfl
@[simp] theorem storeBytes_st (s : State) (a : Nat) (bs : List Byte) : (storeBytes s a bs).st = s.st := rfl
@[simp] theorem storeBytes_key (s : State) (a : Nat) (bs : List Byte) : (storeBytes s a bs).key = s.key := rfl
@[simp] theorem storeBytes_mem (s : State) (a : Nat) (bs : List Byte) : (storeBytes s a bs).mem = Memory.writeBytes s.mem a bs := rfl
@[simp] theorem storeBytes_fb (s : State) (a : Nat) (bs : List Byte) : (storeBytes s a bs).fb = s.fb := rfl
@[simp] theorem storeBytes_halted (s : State) (a : Nat) (bs : List Byte) : (storeBytes s a bs).halted = s.halted := rfl
@[simp] theorem storeBytes_fault (s : State) (a : Nat) (bs : List Byte) : (storeBytes s a bs).fault = s.fault := rfl
@[simp] theorem storeBytes_frameChanged (s : State) (a : Nat) (bs : List Byte) : (storeBytes s a bs).frameChanged = s.frameChanged := rfl
@[simp] theorem storeBytes_soundExpired (s : State) (a : Nat) (bs : List Byte) : (storeBytes s a bs).soundExpired = s.soundExpired := rfl
@[simp] theorem storeBytes_draws (s : State) (a : Nat) (bs : List Byte) : (storeBytes s a bs).draws = s.draws := rfl

/-! ### consumeDraw -/

@[simp] theorem consumeDraw_v (s : State) : (consumeDraw s).v = s.v := rfl
@[simp] theorem consumeDraw_pc (s : State) : (consumeDraw s).pc = s.pc := rfl
@[simp] theorem consumeDraw_i (s : State) : (consumeDraw s).i = s.i := rfl
@[simp] theorem consumeDraw_sp (s : State) : (consumeDraw s).sp = s.sp := rfl
@[simp] theorem consumeDraw_stack (s : State) : (consumeDraw s).stack = s.stack := rfl
@[simp] theorem consumeDraw_dt (s : State) : (consumeDraw s).dt = s.dt := rfl
@[simp] theorem consumeDraw_st (s : State) : (consumeDraw s).st = s.st := rfl
@[simp] theorem consumeDraw_key (s : State) : (consumeDraw s).key = s.key := rfl
@[simp] theorem consumeDraw_mem (s : State) : (consumeDraw s).mem = s.mem := rfl
@[simp] theorem consumeDraw_fb (s : State) : (consumeDraw s).fb = s.fb := rfl
@[simp] theorem consumeDraw_halted (s : State) : (consumeDraw s).halted = s.halted := rfl
@[simp] theorem consumeDraw_fault (s : State) : (consumeDraw s).fault = s.fault := rfl
@[simp] theorem consumeDraw_frameChanged (s : State) : (consumeDraw s).frameChanged = s.frameChanged := rfl
@[simp] theorem consumeDraw_soundExpired (s : State) : (consumeDraw s).soundExpired = s.soundExpired := rfl
@[simp] theorem consumeDraw_draws (s : State) : (consumeDraw s).draws = s.draws + 1 := rfl

/-! ### setKeys -/

@[simp] theorem setKeys_v (k : Vector Bool 16) (s : State) : (setKeys k s).v = s.v := rfl
@[simp] theorem setKeys_pc (k : Vector Bool 16) (s : State) : (setKeys k s).pc = s.pc := rfl
@[simp] theorem setKeys_i (k : Vector Bool 16) (s : State) : (setKeys k s).i = s.i := rfl
@[simp] theorem setKeys_sp (k : Vector Bool 16) (s : State) : (setKeys k s).sp = s.sp := rfl
@[simp] theorem setKeys_stack (k : Vector Bool 16) (s : State) : (setKeys k s).stack = s.stack := rfl
@[simp] theorem setKeys_dt (k : Vector Bool 16) (s : State) : (setKeys k s).dt = s.dt := rfl
@[simp] theorem setKeys_st (k : Vector Bool 16) (s : State) : (setKeys k s).st = s.st := rfl
@[simp] theorem setKeys_key (k : Vector Bool 16) (s : State) : (setKeys k s).key = k := rfl
@[simp] theorem setKeys_mem (k : Vector Bool 16) (s : State) : (setKeys k s).mem = s.mem := rfl
@[simp] theorem setKeys_fb (k : Vector Bool 16) (s : State) : (setKeys k s).fb = s.fb := rfl
@[simp] theorem setKeys_halted (k : Vector Bool 16) (s : State) : (setKeys k s).halted = s.halted := rfl
@[simp] theorem setKeys_fault (k : Vector Bool 16) (s : State) : (setKeys k s).fault = s.fault := rfl
@[simp] theorem setKeys_frameChanged (k : Vector Bool 16) (s : State) : (setKeys k s).frameChanged = s.frameChanged := rfl
@[simp] theorem setKeys_soundExpired (k : Vector Bool 16) (s : State) : (setKeys k s).soundExpired = s.soundExpired := rfl
@[simp] theorem setKeys_draws (k : Vector Bool 16) (s : State) : (setKeys k s).draws = s.draws := rfl

/-! ### bookkeeping -/

@[simp] theorem bookkeeping_v (i : Instr) (s : State) : (bookkeeping i s).v = s.v := rfl
@[simp] theorem bookkeeping_pc (i : Instr) (s : State) : (bookkeeping i s).pc = s.pc := rfl
@[simp] theorem bookkeeping_i (i : Instr) (s : State) : (bookkeeping i s).i = s.i := rfl
@[simp] theorem bookkeeping_sp (i : Instr) (s : State) : (bookkeeping i s).sp = s.sp := rfl
@[simp] theorem bookkeeping_stack (i : Instr) (s : State) : (bookkeeping i s).stack = s.stack := rfl
@[simp] theorem bookkeeping_dt (i : Instr) (s : State) : (bookkeeping i s).dt = countDown s.dt := rfl
@[simp] theorem bookkeeping_st (i : Instr) (s : State) : (bookkeeping i s).st = countDown s.st := rfl
@[simp] theorem bookkeeping_key (i : Instr) (s : State) : (bookkeeping i s).key = s.key := rfl
@[simp] theorem bookkeeping_mem (i : Instr) (s : State) : (bookkeeping i s).mem = s.mem := rfl
@[simp] theorem bookkeeping_fb (i : Instr) (s : State) : (bookkeeping i s).fb = s.fb := rfl
@[simp] theorem bookkeeping_halted (i : Instr) (s : State) : (bookkeeping i s).halted = s.halted := rfl
@[simp] theorem bookkeeping_fault (i : Instr) (s : State) : (bookkeeping i s).fault = s.fault := rfl
@[simp] theorem bookkeeping_frameChanged (i : Instr) (s : State) : (bookkeeping i s).frameChanged = marksFrame i := rfl
@[simp] theorem bookkeeping_soundExpired (i : Instr) (s : State) : (bookkeeping i s).soundExpired = (s.st == 1) := rfl
@[simp] theorem bookkeeping_draws (i : Instr) (s : State) : (bookkeeping i s).draws = s.draws := rfl

/-! ### skipIf -/

@[simp] theorem skipIf_pc (p : Bool) (s : State) : (skipIf p s).pc = if p then s.pc + 4 else s.pc + 2 := by
  cases p <;> rfl
@[simp] theorem skipIf_v (p : Bool) (s : State) : (skipIf p s).v = s.v := by cases p <;> rfl
@[simp] theorem skipIf_i (p : Bool) (s : State) : (skipIf p s).i = s.i := by cases p <;> rfl
@[simp] theorem skipIf_sp (p : Bool) (s : State) : (skipIf p s).sp = s.sp := by cases p <;> rfl
@[simp] theorem skipIf_stack (p : Bool) (s : State) : (skipIf p s).stack = s.stack := by cases p <;> rfl
@[simp] theorem skipIf_dt (p : Bool) (s : State) : (skipIf p s).dt = s.dt := by cases p <;> rfl
@[simp] theorem skipIf_st (p : Bool) (s : State) : (skipIf p s).st = s.st := by cases p <;> rfl
@[simp] theorem skipIf_key (p : Bool) (s : State) : (skipIf p s).key = s.key := by cases p <;> rfl
@[simp] theorem skipIf_mem (p : Bool) (s : State) : (skipIf p s).mem = s.mem := by cases p <;> rfl
@[simp] theorem skipIf_fb (p : Bool) (s : State) : (skipIf p s).fb = s.fb := by cases p <;> rfl
@[simp] theorem skipIf_halted (p : Bool) (s : State) : (skipIf p s).halted = s.halted := by cases p <;> rfl
@[simp] theorem skipIf_fault (p : Bool) (s : State) : (skipIf p s).fault = s.fault := by cases p <;> rfl
@[simp] theorem skipIf_frameChanged (p : Bool) (s : State) : (skipIf p s).frameChanged = s.frameChanged := by cases p <;> rfl
@[simp] theorem skipIf_soundExpired (p : Bool) (s : State) : (skipIf p s).soundExpired = s.soundExpired := by cases p <;> rfl
@[simp] theorem skipIf_draws (p : Bool) (s : State) : (skipIf p s).draws = s.draws := by cases p <;> rfl

/-! ### setRegsFrom -/

@[simp] theorem setRegsFrom_pc (bs : List Byte) (s : State) (k : Nat) : (setRegsFrom s k bs).pc = s.pc := by
  induction bs generalizing s k with
  | nil => rfl
  | cons b bs ih => exact ih _ _
@[simp] theorem setRegsFrom_i (bs : List Byte) (s : State) (k : Nat) : (setRegsFrom s k bs).i = s.i := by
  induction bs generalizing s k with
  | nil => rfl
  | cons b bs ih => exact ih _ _
@[simp] theorem setRegsFrom_sp (bs : List Byte) (s : State) (k : Nat) : (setRegsFrom s k bs).sp = s.sp := by
  induction bs generalizing s k with
  | nil => rfl
  | cons b bs ih => exact ih _ _
@[simp] theorem setRegsFrom_stack (bs : List Byte) (s : State) (k : Nat) : (setRegsFrom s k bs).stack = s.stack := by
  induction bs generalizing s k with
  | nil => rfl
  | cons b bs ih => exact ih _ _
@[simp] theorem setRegsFrom_dt (bs : List Byte) (s : State) (k : Nat) : (setRegsFrom s k bs).dt = s.dt := by
  induction bs generalizing s k with
  | nil => rfl
  | cons b bs ih => exact ih _ _
@[simp] theorem setRegsFrom_st (bs : List Byte) (s : State) (k : Nat) : (setRegsFrom s k bs).st = s.st := by
  induction bs generalizing s k with
  | nil => rfl
  | cons b bs ih => exact ih _ _
@[simp] theorem setRegsFrom_key (bs : List Byte) (s : State) (k : Nat) : (setRegsFrom s k bs).key = s.key := by
  induction bs generalizing s k with
  | nil => rfl
  | cons b bs ih => exact ih _ _
@[simp] theorem setRegsFrom_mem (bs : List Byte) (s : State) (k : Nat) : (setRegsFrom s k bs).mem = s.mem := by
  induction bs generalizing s k with
  | nil => rfl
  | cons b bs ih => exact ih _ _
@[simp] theorem setRegsFrom_fb (bs : List Byte) (s : State) (k : Nat) : (setRegsFrom s k bs).fb = s.fb := by
  induction bs generalizing s k with
  | nil => rfl
  | cons b bs ih => exact ih _ _
@[simp] theorem setRegsFrom_halted (bs : List Byte) (s : State) (k : Nat) : (setRegsFrom s k bs).halted = s.halted := by
  induction bs generalizing s k with
  | nil => rfl
  | cons b bs ih => exact ih _ _
@[simp] theorem setRegsFrom_fault (bs : List Byte) (s : State) (k : Nat) : (setRegsFrom s k bs).fault = s.fault := by
  induction bs generalizing s k with
  | nil => rfl
  | cons b bs ih => exact ih _ _
@[simp] theorem setRegsFrom_frameChanged (bs : List Byte) (s : State) (k : Nat) : (setRegsFrom s k bs).frameChanged = s.frameChanged := by
  induction bs generalizing s k with
  | nil => rfl
  | cons b bs ih => exact ih _ _
@[simp] theorem setRegsFrom_soundExpired (bs : List Byte) (s : State) (k : Nat) : (setRegsFrom s k bs).soundExpired = s.soundExpired := by
  induction bs generalizing s k with
  | nil => rfl
  | cons b bs ih => exact ih _ _
@[simp] theorem setRegsFrom_draws (bs : List Byte) (s : State) (k : Nat) : (setRegsFrom s k bs).draws = s.draws := by
  induction bs generalizing s k with
  | nil => rfl
  | cons b bs ih => exact ih _ _

/-! ### State.resetWith and hostReset -/

@[simp] theorem resetWith_v (f : Vector Byte 80) : (State.resetWith f).v = State.reset.v := rfl
@[simp] theorem resetWith_pc (f : Vector Byte 80) : (State.resetWith f).pc = State.reset.pc := rfl
@[simp] theorem resetWith_i (f : Vector Byte 80) : (State.resetWith f).i = State.reset.i := rfl
@[simp] theorem resetWith_sp (f : Vector Byte 80) : (State.resetWith f).sp = State.reset.sp := rfl
@[simp] theorem resetWith_stack (f : Vector Byte 80) : (State.resetWith f).stack = State.reset.stack := rfl
@[simp] theorem resetWith_dt (f : Vector Byte 80) : (State.resetWith f).dt = State.reset.dt := rfl
@[simp] theorem resetWith_st (f : Vector Byte 80) : (State.resetWith f).st = State.reset.st := rfl
@[simp] theorem resetWith_key (f : Vector Byte 80) : (State.resetWith f).key = State.reset.key := rfl
@[simp] theorem resetWith_mem (f : Vector Byte 80) : (State.resetWith f).mem = Memory.writeBytes [] Config.fontBase f.toList := rfl
@[simp] theorem resetWith_fb (f : Vector Byte 80) : (State.resetWith f).fb = State.reset.fb := rfl
@[simp] theorem resetWith_halted (f : Vector Byte 80) : (State.resetWith f).halted = State.reset.halted := rfl
@[simp] theorem resetWith_fault (f : Vector Byte 80) : (State.resetWith f).fault = State.reset.fault := rfl
@[simp] theorem resetWith_frameChanged (f : Vector Byte 80) : (State.resetWith f).frameChanged = State.reset.frameChanged := rfl
@[simp] theorem resetWith_soundExpired (f : Vector Byte 80) : (State.resetWith f).soundExpired = State.reset.soundExpired := rfl
@[simp] theorem resetWith_draws (f : Vector Byte 80) : (State.resetWith f).draws = State.reset.draws := rfl
@[simp] theorem hostReset_v (f : Vector Byte 80) (s : State) : (hostReset f s).v = (State.resetWith f).v := rfl
@[simp] theorem hostReset_pc (f : Vector Byte 80) (s : State) : (hostReset f s).pc = (State.resetWith f).pc := rfl
@[simp] theorem hostReset_i (f : Vector Byte 80) (s : State) : (hostReset f s).i = (State.resetWith f).i := rfl
@[simp] theorem hostReset_sp (f : Vector Byte 80) (s : State) : (hostReset f s).sp = (State.resetWith f).sp := rfl
@[simp] theorem hostReset_stack (f : Vector Byte 80) (s : State) : (hostReset f s).stack = (State.resetWith f).stack := rfl
@[simp] theorem hostReset_dt (f : Vector Byte 80) (s : State) : (hostReset f s).dt = (State.resetWith f).dt := rfl
@[simp] theorem hostReset_st (f : Vector Byte 80) (s : State) : (hostReset f s).st = (State.resetWith f).st := rfl
@[simp] theorem hostReset_key (f : Vector Byte 80) (s : State) : (hostReset f s).key = (State.resetWith f).key := rfl
@[simp] theorem hostReset_mem (f : Vector Byte 80) (s : State) : (hostReset f s).mem = (State.resetWith f).mem := rfl
@[simp] theorem hostReset_fb (f : Vector Byte 80) (s : State) : (hostReset f s).fb = (State.resetWith f).fb := rfl
@[simp] theorem hostReset_halted (f : Vector Byte 80) (s : State) : (hostReset f s).halted = (State.resetWith f).halted := rfl
@[simp] theorem hostReset_fault (f : Vector Byte 80) (s : State) : (hostReset f s).fault = (State.resetWith f).fault := rfl
@[simp] theorem hostReset_frameChanged (f : Vector Byte 80) (s : State) : (hostReset f s).frameChanged = (State.resetWith f).frameChanged := rfl
@[simp] theorem hostReset_soundExpired (f : Vector Byte 80) (s : State) : (hostReset f s).soundExpired = (State.resetWith f).soundExpired := rfl
@[simp] theorem hostReset_draws (f : Vector Byte 80) (s : State) : (hostReset f s).draws = s.draws := rfl

end Sys2Proof.Machine
end

