-- ==== Sys2Proof/Laws/Memory.lean ====
section
/-!
SUPPORT. What reading, writing and the canonical form of the memory do: a read after a write, and that every operation
keeps the canonical form.
-/

namespace Sys2Proof.Machine

theorem read_insert (m : Memory) (a b : Nat) (v : Byte) :
    Memory.read (Memory.insert m a v) b = if b = a then v else Memory.read m b := by
  induction m with
  | nil => simp only [Memory.insert, Memory.read, eq_comm (a := a)]
  | cons c m ih =>
    obtain ⟨c, w⟩ := c
    simp only [Memory.insert]
    split
    · simp only [Memory.read, ih]; grind
    · split <;> simp only [Memory.read] <;> grind

theorem read_erase (m : Memory) (a b : Nat) :
    Memory.read (Memory.erase m a) b = if b = a then initByte a else Memory.read m b := by
  induction m with
  | nil => by_cases h : b = a <;> simp [Memory.erase, Memory.read, h]
  | cons c m ih =>
    obtain ⟨c, w⟩ := c
    simp only [Memory.erase, List.filter_cons] at ih ⊢
    by_cases h : c = a <;> simp only [h, Memory.read] <;> grind [Memory.read]

/-- A read after a write: the byte written at its address, what was there before at every other. -/
theorem read_write (m : Memory) (a b : Nat) (v : Byte) :
    Memory.read (Memory.write m a v) b = if b = a then v else Memory.read m b := by
  unfold Memory.write
  split
  · rw [read_erase]; grind
  · exact read_insert m a b v

/-- A read after a write of several bytes. -/
theorem read_writeBytes (bs : List Byte) (m : Memory) (base a : Nat) :
    Memory.read (Memory.writeBytes m base bs) a =
      if h : base ≤ a ∧ a - base < bs.length then bs[a - base]'h.2 else Memory.read m a := by
  induction bs generalizing base with
  | nil => simp [Memory.writeBytes]
  | cons b bs ih =>
    rw [Memory.writeBytes, read_write, ih]
    by_cases h0 : a = base
    · subst h0; simp
    · by_cases h1 : base + 1 ≤ a
      · obtain ⟨k, rfl⟩ : ∃ k, a = base + 1 + k := ⟨a - (base + 1), by omega⟩
        have e1 : base + 1 + k - (base + 1) = k := by omega
        have e2 : base + 1 + k - base = k + 1 := by omega
        simp only [h0, if_false, e1, e2, List.length_cons, List.getElem_cons_succ]
        have : (base + 1 ≤ base + 1 + k ∧ k < bs.length) ↔ (base ≤ base + 1 + k ∧ k + 1 < bs.length + 1) := by omega
        simp only [this]
      · rw [if_neg h0, dif_neg (by omega), dif_neg (by omega)]

@[simp] theorem readBytes_length (m : Memory) (base n : Nat) : (Memory.readBytes m base n).length = n := by
  simp [Memory.readBytes]

@[simp] theorem readBytes_getElem (m : Memory) (base n k : Nat) (h : k < (Memory.readBytes m base n).length) :
    (Memory.readBytes m base n)[k] = Memory.read m (base + k) := by
  simp [Memory.readBytes]

theorem wfFrom_mono {m : Memory} {lo hi : Nat} (h : Memory.wfFrom hi m = true) (hle : lo ≤ hi) :
    Memory.wfFrom lo m = true := by
  cases m with
  | nil => rfl
  | cons c m => simp only [Memory.wfFrom, Bool.and_eq_true, decide_eq_true_eq] at h ⊢; grind

theorem insert_wfFrom {m : Memory} {lo a : Nat} {v : Byte} (h : Memory.wfFrom lo m = true) (hlo : lo ≤ a)
    (ha : a < Config.memSize) (hv : v ≠ initByte a) : Memory.wfFrom lo (Memory.insert m a v) = true := by
  induction m generalizing lo with
  | nil => simp [Memory.insert, Memory.wfFrom, hlo, ha, hv]
  | cons c m ih =>
    obtain ⟨b, w⟩ := c
    simp only [Memory.wfFrom, Bool.and_eq_true, decide_eq_true_eq, bne_iff_ne] at h
    simp only [Memory.insert]
    split
    · simp only [Memory.wfFrom, Bool.and_eq_true, decide_eq_true_eq, bne_iff_ne]
      exact ⟨⟨⟨h.1.1.1, h.1.1.2⟩, h.1.2⟩, ih h.2 (by omega)⟩
    · split
      · next e => subst e; simp [Memory.wfFrom, hlo, ha, hv, h.2]
      · simp only [Memory.wfFrom, Bool.and_eq_true, decide_eq_true_eq, bne_iff_ne]
        exact ⟨⟨⟨hlo, ha⟩, hv⟩, ⟨⟨by omega, h.1.1.2⟩, h.1.2⟩, h.2⟩

theorem erase_wfFrom {m : Memory} {lo : Nat} (a : Nat) (h : Memory.wfFrom lo m = true) :
    Memory.wfFrom lo (Memory.erase m a) = true := by
  induction m generalizing lo with
  | nil => rfl
  | cons c m ih =>
    obtain ⟨b, w⟩ := c
    simp only [Memory.wfFrom, Bool.and_eq_true, decide_eq_true_eq, bne_iff_ne] at h
    simp only [Memory.erase, List.filter_cons] at ih ⊢
    split
    · simp only [Memory.wfFrom, Bool.and_eq_true, decide_eq_true_eq, bne_iff_ne]
      exact ⟨⟨⟨h.1.1.1, h.1.1.2⟩, h.1.2⟩, ih h.2⟩
    · exact ih (wfFrom_mono h.2 (by omega))

/-- A write inside the 4096 bytes keeps the canonical form. -/
theorem write_wf {m : Memory} {a : Nat} (v : Byte) (h : Memory.wf m = true) (ha : a < Config.memSize) :
    Memory.wf (Memory.write m a v) = true := by
  unfold Memory.write
  split
  · exact erase_wfFrom a h
  · next hv => exact insert_wfFrom h (Nat.zero_le _) ha hv

/-- A write of several bytes inside the 4096 bytes keeps the canonical form. -/
theorem writeBytes_wf {m : Memory} (bs : List Byte) (base : Nat) (h : Memory.wf m = true)
    (hb : bs = [] ∨ base + bs.length ≤ Config.memSize) : Memory.wf (Memory.writeBytes m base bs) = true := by
  induction bs generalizing base with
  | nil => exact h
  | cons b bs ih =>
    have hb : base + (bs.length + 1) ≤ Config.memSize := by simpa using hb
    exact write_wf b (ih (base + 1) (Or.inr (by omega))) (by omega)

/-- Reset gives a canonical memory whatever FONT is. -/
theorem resetWith_mem_wf (fontBytes : Vector Byte 80) : Memory.wf (State.resetWith fontBytes).mem = true :=
  writeBytes_wf _ _ rfl (.inr (by simp [Config.fontBase, Config.memSize]))

theorem reset_mem_wf : Memory.wf State.reset.mem = true := rfl

end Sys2Proof.Machine
end

