-- ==== Sys2Proof/Laws/Ops.lean ====
section
/-!
SUPPORT. One lemma per shared operation that says what it does: registers, address checks, the keypad, the framebuffer.
-/

namespace Sys2Proof.Machine

/-! ## Registers -/

/-- `V[y]` after `V[x] <- b`. -/
theorem reg_setReg (s : State) (x y : Nibble) (b : Byte) : reg (setReg s x b) y = if x = y then b else reg s y := by
  simp [reg, setReg, Vector.getElem_set, BitVec.toNat_inj]

/-- `V[y]` after a result and then the flag: VF is the flag, whatever `x` is (R140). -/
theorem reg_setRegFlag (s : State) (x y : Nibble) (b f : Byte) :
    reg (setRegFlag s x b f) y = if y = vF then f else if x = y then b else reg s y := by
  simp only [setRegFlag, reg_setReg, eq_comm (a := vF)]

/-- A register reads the same in two states with the same registers. -/
theorem reg_congr {s t : State} (h : t.v = s.v) (r : Nibble) : reg t r = reg s r := by
  simp only [reg, h]

@[simp] theorem reg_nextInstr (s : State) (r : Nibble) : reg (nextInstr s) r = reg s r := rfl
@[simp] theorem reg_setIndex (s : State) (w : Word) (r : Nibble) : reg (setIndex s w) r = reg s r := rfl
@[simp] theorem reg_setDelay (s : State) (b : Byte) (r : Nibble) : reg (setDelay s b) r = reg s r := rfl
@[simp] theorem reg_setSound (s : State) (b : Byte) (r : Nibble) : reg (setSound s b) r = reg s r := rfl
@[simp] theorem reg_setFrame (s : State) (f : Frame) (r : Nibble) : reg (setFrame s f) r = reg s r := rfl
@[simp] theorem reg_jumpTo (s : State) (w : Word) (r : Nibble) : reg (jumpTo s w) r = reg s r := rfl
@[simp] theorem reg_skipIf (p : Bool) (s : State) (r : Nibble) : reg (skipIf p s) r = reg s r := by cases p <;> rfl
@[simp] theorem reg_consumeDraw (s : State) (r : Nibble) : reg (consumeDraw s) r = reg s r := rfl
@[simp] theorem reg_storeBytes (s : State) (a : Nat) (bs : List Byte) (r : Nibble) :
    reg (storeBytes s a bs) r = reg s r := rfl
@[simp] theorem reg_enterFault (s : State) (c : Cause) (op : Option Word) (a : Option Nat) (r : Nibble) :
    reg (enterFault s c op a) r = reg s r := rfl

@[simp] theorem reg_push (s : State) (w : Word) (h : s.sp.val < 16) (r : Nibble) : reg (push s w h) r = reg s r := rfl
@[simp] theorem reg_pop (s : State) (h : 0 < s.sp.val) (r : Nibble) : reg (pop s h) r = reg s r := rfl
@[simp] theorem reg_setKeys (k : Vector Bool 16) (s : State) (r : Nibble) : reg (setKeys k s) r = reg s r := rfl
@[simp] theorem reg_bookkeeping (i : Instr) (s : State) (r : Nibble) : reg (bookkeeping i s) r = reg s r := rfl

/-- `V[r]` after `V[k] <- bs[0]`, `V[k + 1] <- bs[1]`, ... -/
theorem reg_setRegsFrom (bs : List Byte) (s : State) (k : Nat) (hk : k + bs.length ≤ 16) (r : Nibble) :
    reg (setRegsFrom s k bs) r =
      if h : k ≤ r.toNat ∧ r.toNat - k < bs.length then bs[r.toNat - k]'h.2 else reg s r := by
  induction bs generalizing s k with
  | nil => simp [setRegsFrom]
  | cons b bs ih =>
    have hk' : k + 1 + bs.length ≤ 16 := by simpa [Nat.add_assoc, Nat.add_comm 1] using hk
    have e : (BitVec.ofNat 4 k).toNat = k := by rw [BitVec.toNat_ofNat]; omega
    rw [setRegsFrom, ih _ _ hk', reg_setReg]
    by_cases h0 : r.toNat = k
    · have : BitVec.ofNat 4 k = r := by rw [← BitVec.toNat_inj, e, h0]
      simp [this, h0]
    · have : BitVec.ofNat 4 k ≠ r := by rw [Ne, ← BitVec.toNat_inj, e]; omega
      rw [if_neg this]
      by_cases h1 : k + 1 ≤ r.toNat
      · obtain ⟨j, hj⟩ : ∃ j, r.toNat = k + 1 + j := ⟨r.toNat - (k + 1), by omega⟩
        have e1 : k + 1 + j - (k + 1) = j := by omega
        have e2 : k + 1 + j - k = j + 1 := by omega
        simp only [hj, e1, e2, List.length_cons, List.getElem_cons_succ]
        have : (k + 1 ≤ k + 1 + j ∧ j < bs.length) ↔ (k ≤ k + 1 + j ∧ j + 1 < bs.length + 1) := by omega
        simp only [this]
      · rw [dif_neg (by omega), dif_neg (by omega)]

@[simp] theorem regsUpTo_length (s : State) (x : Nibble) : (regsUpTo s x).length = x.toNat + 1 := by
  have : x.toNat < 16 := x.isLt
  simp [regsUpTo]; omega

@[simp] theorem regsUpTo_getElem (s : State) (x : Nibble) (k : Nat) (h : k < (regsUpTo s x).length) :
    (regsUpTo s x)[k] = reg s (BitVec.ofNat 4 k) := by
  have hk : k < 16 := by have := x.isLt; simp at h; omega
  have e : k % 16 = k := Nat.mod_eq_of_lt hk
  simp [regsUpTo, reg, e]

/-! ## Data addresses -/

/-- No address is above 0xFFF exactly when the last one is not (or there is none). -/
theorem firstOutside_eq_none {base n : Nat} : firstOutside base n = none ↔ n = 0 ∨ base + n ≤ 0x1000 := by
  simp only [firstOutside, List.find?_eq_none, List.mem_map, List.mem_range, decide_eq_true_eq]
  constructor
  · intro h
    by_cases hn : n = 0
    · exact .inl hn
    · have := h _ ⟨n - 1, by omega, rfl⟩; omega
  · rintro h a ⟨k, hk, rfl⟩; omega

/-- The lowest address above 0xFFF is the base itself or 0x1000. -/
theorem firstOutside_eq_some {base n a : Nat} :
    firstOutside base n = some a ↔ n ≠ 0 ∧ 0x1000 < base + n ∧ a = max base 0x1000 := by
  have key : firstOutside base n = if n ≠ 0 ∧ 0x1000 < base + n then some (max base 0x1000) else none := by
    split
    · next h =>
      rw [firstOutside, List.find?_eq_some_iff_getElem]
      refine ⟨by simp, max base 0x1000 - base, by simp; omega, by simp, fun j hj => ?_⟩
      simp; omega
    · next h => exact firstOutside_eq_none.mpr (by omega)
  rw [key]
  split <;> simp <;> omega

/-- An instruction whose data bytes are all inside memory reaches its state `done`. -/
theorem withBytesAtI_inside {i : Instr} {n : Nat} {s t : State} (h : n = 0 ∨ s.i.toNat + n ≤ 0x1000) :
    withBytesAtI i n s t = .next t := by
  simp only [withBytesAtI, firstOutside_eq_none.mpr h]

/-- An instruction with a data byte outside memory takes MEM_RANGE with the lowest such address. -/
theorem withBytesAtI_outside {i : Instr} {n : Nat} {s t : State} (hn : n ≠ 0) (h : 0x1000 < s.i.toNat + n) :
    withBytesAtI i n s t =
      .next (enterFault s .memRange (some (encode i)) (some (max s.i.toNat 0x1000))) := by
  simp only [withBytesAtI, firstOutside_eq_some.mpr ⟨hn, h, rfl⟩]

/-- One of the two. -/
theorem withBytesAtI_cases (i : Instr) (n : Nat) (s t : State) :
    (withBytesAtI i n s t = .next t ∧ (n = 0 ∨ s.i.toNat + n ≤ 0x1000)) ∨
      (withBytesAtI i n s t = .next (enterFault s .memRange (some (encode i)) (some (max s.i.toNat 0x1000))) ∧
        n ≠ 0 ∧ 0x1000 < s.i.toNat + n) := by
  by_cases h : n = 0 ∨ s.i.toNat + n ≤ 0x1000
  · exact .inl ⟨withBytesAtI_inside h, h⟩
  · exact .inr ⟨withBytesAtI_outside (by omega) (by omega), by omega, by omega⟩

/-! ## The keypad -/

/-- A key index up to 0xF reads its entry. -/
theorem keyAt_inside {s : State} {k : Byte} (h : k.toNat < 16) : keyAt s k = some (s.key[k.toNat]) := by
  simp [keyAt, h]

/-- A key index above 0xF reads none. -/
theorem keyAt_outside {s : State} {k : Byte} (h : 16 ≤ k.toNat) : keyAt s k = none := by
  simp [keyAt]; omega

/-- A key index reads an entry exactly when it is up to 0xF. -/
theorem keyAt_eq_some {s : State} {k : Byte} {b : Bool} :
    keyAt s k = some b ↔ ∃ h : k.toNat < 16, s.key[k.toNat] = b := by
  by_cases h : k.toNat < 16
  · simp [keyAt_inside h, h]
  · simp [keyAt_outside (Nat.le_of_not_lt h), h]

theorem leastKeyFrom_eq_none {k : Nat} {l : List Bool} : leastKeyFrom k l = none ↔ ∀ b ∈ l, b = false := by
  induction l generalizing k with
  | nil => simp [leastKeyFrom]
  | cons b l ih => cases b <;> simp [leastKeyFrom, ih]

theorem leastKeyFrom_eq_some {k j : Nat} {l : List Bool} :
    leastKeyFrom k l = some j ↔ k ≤ j ∧ l[j - k]? = some true ∧ ∀ m, m < j - k → l[m]? = some false := by
  induction l generalizing k with
  | nil => simp [leastKeyFrom]
  | cons b l ih =>
    cases b
    · simp only [leastKeyFrom, Bool.false_eq_true, if_false, ih]
      constructor
      · rintro ⟨h1, h2, h3⟩
        obtain ⟨d, rfl⟩ : ∃ d, j = k + 1 + d := ⟨j - (k + 1), by omega⟩
        have e1 : k + 1 + d - (k + 1) = d := by omega
        have e2 : k + 1 + d - k = d + 1 := by omega
        rw [e1] at h2 h3
        refine ⟨by omega, by simpa [e2] using h2, fun m hm => ?_⟩
        cases m with
        | zero => rfl
        | succ m => simpa using h3 m (by omega)
      · rintro ⟨h1, h2, h3⟩
        by_cases hj : j = k
        · subst hj; simp at h2
        · obtain ⟨d, rfl⟩ : ∃ d, j = k + 1 + d := ⟨j - (k + 1), by omega⟩
          have e1 : k + 1 + d - (k + 1) = d := by omega
          have e2 : k + 1 + d - k = d + 1 := by omega
          rw [e2] at h2 h3
          rw [e1]
          exact ⟨by omega, by simpa using h2, fun m hm => by simpa using h3 (m + 1) (by omega)⟩
    · simp only [leastKeyFrom, if_true, Option.some.injEq]
      constructor
      · rintro rfl; simp
      · rintro ⟨h1, -, h3⟩
        by_contra hne
        have := h3 0 (by omega)
        simp at this

/-- No key is pressed exactly when there is no least one. -/
theorem leastKey_eq_none {s : State} : leastKey s = none ↔ ∀ k (h : k < 16), s.key[k] = false := by
  rw [leastKey, leastKeyFrom_eq_none]
  constructor
  · intro h k hk; exact h _ (by simp)
  · intro h b hb
    obtain ⟨k, hk, rfl⟩ := List.mem_iff_getElem.mp hb
    simpa using h k (by simpa using hk)

/-- The least key is pressed and none below it is. -/
theorem leastKey_eq_some {s : State} {j : Nat} :
    leastKey s = some j ↔ ∃ h : j < 16, s.key[j] = true ∧ ∀ m (hm : m < j), s.key[m]'(by omega) = false := by
  rw [leastKey, leastKeyFrom_eq_some]
  constructor
  · rintro ⟨-, h2, h3⟩
    rw [Nat.sub_zero] at h2 h3
    obtain ⟨hj, h2⟩ := List.getElem?_eq_some_iff.mp h2
    have hj : j < 16 := by simpa using hj
    refine ⟨hj, by simpa using h2, fun m hm => ?_⟩
    obtain ⟨_, h⟩ := List.getElem?_eq_some_iff.mp (h3 m hm)
    simpa using h
  · rintro ⟨hj, h2, h3⟩
    refine ⟨Nat.zero_le _, by simpa [hj] using h2, fun m hm => ?_⟩
    have hm' : m < j := by simpa using hm
    have : m < 16 := by omega
    simpa [this] using h3 m hm'

/-! ## The framebuffer -/

theorem pixel_inside {fb : Frame} {r c : Nat} (hr : r < 32) (hc : c < 64) : pixel fb r c = fb[r][c] := by
  simp [pixel, hr, hc]

theorem pixel_outside {fb : Frame} {r c : Nat} (h : ¬(r < 32 ∧ c < 64)) : pixel fb r c = false := by
  simp only [pixel, dif_neg h]

/-- Two grids with the same pixels are the same grid. -/
theorem frame_ext {f g : Frame} (h : ∀ r c, r < 32 → c < 64 → pixel f r c = pixel g r c) : f = g := by
  apply Vector.ext; intro r hr
  apply Vector.ext; intro c hc
  simpa [pixel, hr, hc] using h r c hr hc

@[simp] theorem pixel_clearFrame (r c : Nat) : pixel clearFrame r c = false := by
  simp [pixel, clearFrame]

/-- Inverting a pixel: that pixel changes, if it is in the grid, and no other does. -/
theorem pixel_togglePixel (fb : Frame) (row col r c : Nat) :
    pixel (togglePixel fb row col).1 r c =
      if r = row ∧ c = col ∧ r < 32 ∧ c < 64 then !pixel fb r c else pixel fb r c := by
  unfold togglePixel
  split
  · next h =>
    by_cases hin : r < 32 ∧ c < 64
    · obtain ⟨hr, hc⟩ := hin
      simp only [pixel, hr, hc, and_self, dif_pos, and_true, Vector.getElem_set]
      by_cases e1 : row = r
      · subst e1
        by_cases e2 : col = c
        · subst e2; simp
        · simp [e2, Ne.symm e2]
      · simp [e1, Ne.symm e1]
    · simp [pixel, hin]
  · next h =>
    by_cases e : r = row ∧ c = col ∧ r < 32 ∧ c < 64
    · exact absurd ⟨e.1 ▸ e.2.2.1, e.2.1 ▸ e.2.2.2⟩ h
    · rw [if_neg e]

/-- A toggled pixel reports a collision when it was set. -/
theorem togglePixel_collision (fb : Frame) (row col : Nat) : (togglePixel fb row col).2 = pixel fb row col := by
  unfold togglePixel pixel; split <;> rfl

/-- Inverting distinct pixels: exactly the listed ones in the grid change (R104: the order does not matter). -/
theorem pixel_togglePixels {ps : List (Nat × Nat)} (hd : ps.Nodup) (fb : Frame) (r c : Nat) :
    pixel (togglePixels ps fb).1 r c =
      if (r, c) ∈ ps ∧ r < 32 ∧ c < 64 then !pixel fb r c else pixel fb r c := by
  induction ps generalizing fb with
  | nil => simp [togglePixels]
  | cons p ps ih =>
    obtain ⟨row, col⟩ := p
    obtain ⟨hp, hd⟩ := List.nodup_cons.mp hd
    simp only [togglePixels, ih hd, pixel_togglePixel, List.mem_cons, Prod.mk.injEq]
    by_cases h1 : r = row ∧ c = col
    · obtain ⟨rfl, rfl⟩ := h1; simp [hp]
    · by_cases h2 : (r, c) ∈ ps <;> simp [h1, h2] <;> grind

/-- Inverting distinct pixels collides exactly when one of them was set. -/
theorem togglePixels_collision {ps : List (Nat × Nat)} (hd : ps.Nodup) (fb : Frame) :
    (togglePixels ps fb).2 = true ↔ ∃ p ∈ ps, pixel fb p.1 p.2 = true := by
  induction ps generalizing fb with
  | nil => simp [togglePixels]
  | cons p ps ih =>
    obtain ⟨row, col⟩ := p
    obtain ⟨hp, hd⟩ := List.nodup_cons.mp hd
    simp only [togglePixels, Bool.or_eq_true, togglePixel_collision, ih hd, List.mem_cons, exists_eq_or_imp]
    refine or_congr_right (exists_congr fun q => and_congr_right fun hq => ?_)
    rw [pixel_togglePixel, if_neg]
    rintro ⟨h1, h2, -⟩
    exact hp (by rw [← h1, ← h2]; exact hq)

theorem mem_rowPixels {row x : Nat} {b : Byte} {r c : Nat} :
    (r, c) ∈ rowPixels row x b ↔ r = row ∧ ∃ k < 8, b.getLsbD (7 - k) = true ∧ c = x + k := by
  simp only [rowPixels, List.mem_map, List.mem_filter, List.mem_range, Prod.mk.injEq]
  grind

/-- The pixels a sprite covers: row `y + r`, column `x + c`, for each 1 bit `7 - c` of its byte `r` (R102). -/
theorem mem_spritePixels {sprite : List Byte} {x y row col : Nat} :
    (row, col) ∈ spritePixels x y sprite ↔
      ∃ r, ∃ h : r < sprite.length, ∃ c, c < 8 ∧ sprite[r].getLsbD (7 - c) = true ∧ row = y + r ∧ col = x + c := by
  induction sprite generalizing y with
  | nil => simp [spritePixels]
  | cons b bs ih =>
    rw [spritePixels, List.mem_append, mem_rowPixels, ih]
    constructor
    · rintro (⟨rfl, k, hk, hb, rfl⟩ | ⟨r, hr, c, hc, hb, rfl, rfl⟩)
      · exact ⟨0, by simp, k, hk, by simpa using hb, rfl, rfl⟩
      · exact ⟨r + 1, by simpa using hr, c, hc, by simpa using hb, by omega, rfl⟩
    · rintro ⟨r, hr, c, hc, hb, rfl, rfl⟩
      cases r with
      | zero => exact .inl ⟨rfl, c, hc, by simpa using hb, rfl⟩
      | succ r => exact .inr ⟨r, by simpa using hr, c, hc, by simpa using hb, by omega, rfl⟩

/-- A sprite reaches each pixel at most once (R104). -/
theorem spritePixels_nodup (sprite : List Byte) (x y : Nat) : (spritePixels x y sprite).Nodup := by
  induction sprite generalizing y with
  | nil => simp [spritePixels]
  | cons b bs ih =>
    rw [spritePixels, List.nodup_append]
    refine ⟨?_, ih _, ?_⟩
    · refine List.Nodup.map ?_ (List.Nodup.filter _ List.nodup_range)
      intro c d h; simpa using h
    · rintro ⟨r, c⟩ h1 ⟨r', c'⟩ h2 e
      obtain ⟨rfl, rfl⟩ := Prod.mk.inj e
      obtain ⟨rfl, -⟩ := mem_rowPixels.mp h1
      obtain ⟨k, -, _, -, -, h, -⟩ := mem_spritePixels.mp h2
      omega

/-! ## The cycle -/

/-- What a step can do (R90): nothing when halted; a fault entry of fetch or decode; or execute and the end of the
cycle. -/
theorem step_halted {s : State} (h : s.halted = true) : step s = .fault (.halted s.fault) := by
  simp [step, h]

theorem step_faulted {s t : State} (h : s.halted = false) (hf : fetchDecode s = .faulted t) : step s = .next t := by
  simp [step, h, hf]

theorem step_instr {s t : State} {i : Instr} (h : s.halted = false) (hf : fetchDecode s = .instr i)
    (he : exec i s = .next t) : step s = .next (endCycle i t) := by
  simp [step, h, hf, he]

/-- The three ways fetch and decode end (R91, R92). -/
theorem fetchDecode_cases (s : State) :
    (0xFFF < s.pc.toNat + 1 ∧ fetchDecode s = .faulted (enterFault s .fetchRange none none)) ∨
    (s.pc.toNat + 1 ≤ 0xFFF ∧ decodeWord (opcodeAtPc s) = none ∧
      fetchDecode s = .faulted (enterFault s .illegalOpcode (some (opcodeAtPc s)) none)) ∨
    (∃ i, s.pc.toNat + 1 ≤ 0xFFF ∧ decodeWord (opcodeAtPc s) = some i ∧ fetchDecode s = .instr i) := by
  unfold fetchDecode
  by_cases h : 0xFFF < s.pc.toNat + 1
  · exact .inl ⟨h, by rw [if_pos h]⟩
  · rw [if_neg h]
    cases hd : decodeWord (opcodeAtPc s) with
    | none => exact .inr (.inl ⟨by omega, rfl, rfl⟩)
    | some i => exact .inr (.inr ⟨i, by omega, rfl, rfl⟩)

/-- The end of a cycle whose instruction completed is phase 4; a faulting one skips it (R93, R214). -/
theorem endCycle_completed {i : Instr} {t : State} (h : t.halted = false) : endCycle i t = bookkeeping i t := by
  simp [endCycle, h]

theorem endCycle_faulted {i : Instr} {t : State} (h : t.halted = true) : endCycle i t = t := by
  simp [endCycle, h]

end Sys2Proof.Machine
end

