-- ==== Sys2Proof/Laws/PerInstr.lean ====
section
/-!
SUPPORT. Per instruction: it is well-formed, and its word carries the fixed bits of its row of the opcode table (R76).
-/

namespace Sys2Proof.Laws.EncodingPattern

/-- The operands fit their fields, and the word matches a row: `encode i & mask == match` (R74). -/
def Statement (i : Instr) : Prop :=
  i.wellFormed = true ∧ ∃ k, ∃ h : k < opcodeTable.length, rowMatches (encode i) (opcodeTable[k]'h) = true

/-- The shape of each proof below: name the row, and check its mask on the parts of the word. -/
theorem of_row {i : Instr} (k : Nat) (h : k < opcodeTable.length)
    (hm : encode i &&& (opcodeTable[k]'h).mask = (opcodeTable[k]'h).pattern) : Statement i :=
  ⟨wellFormed_all i, k, h, by rw [rowMatches, hm]; exact beq_self_eq_true _⟩

theorem cls : Statement .cls := of_row 0 (by decide) rfl
theorem ret : Statement .ret := of_row 1 (by decide) rfl
theorem jp (nnn : Addr12) : Statement (.jp nnn) :=
  of_row 2 (by decide) (by simp [opcodeTable, opcodeRowsA, opcodeRowsB, opcodeRowsC, opcodeRowsD, encode, mask_or])
theorem call (nnn : Addr12) : Statement (.call nnn) :=
  of_row 3 (by decide) (by simp [opcodeTable, opcodeRowsA, opcodeRowsB, opcodeRowsC, opcodeRowsD, encode, mask_or])
theorem seImm (x : Nibble) (kk : Byte) : Statement (.seImm x kk) :=
  of_row 4 (by decide) (by simp [opcodeTable, opcodeRowsA, opcodeRowsB, opcodeRowsC, opcodeRowsD, encode, mask_or])
theorem sneImm (x : Nibble) (kk : Byte) : Statement (.sneImm x kk) :=
  of_row 5 (by decide) (by simp [opcodeTable, opcodeRowsA, opcodeRowsB, opcodeRowsC, opcodeRowsD, encode, mask_or])
theorem seReg (x y : Nibble) : Statement (.seReg x y) :=
  of_row 6 (by decide) (by simp [opcodeTable, opcodeRowsA, opcodeRowsB, opcodeRowsC, opcodeRowsD, encode, mask_or])
theorem ldImm (x : Nibble) (kk : Byte) : Statement (.ldImm x kk) :=
  of_row 7 (by decide) (by simp [opcodeTable, opcodeRowsA, opcodeRowsB, opcodeRowsC, opcodeRowsD, encode, mask_or])
theorem addImm (x : Nibble) (kk : Byte) : Statement (.addImm x kk) :=
  of_row 8 (by decide) (by simp [opcodeTable, opcodeRowsA, opcodeRowsB, opcodeRowsC, opcodeRowsD, encode, mask_or])
theorem ldReg (x y : Nibble) : Statement (.ldReg x y) :=
  of_row 9 (by decide) (by simp [opcodeTable, opcodeRowsA, opcodeRowsB, opcodeRowsC, opcodeRowsD, encode, mask_or])
theorem or (x y : Nibble) : Statement (.or x y) :=
  of_row 10 (by decide) (by simp [opcodeTable, opcodeRowsA, opcodeRowsB, opcodeRowsC, opcodeRowsD, encode, mask_or])
theorem and (x y : Nibble) : Statement (.and x y) :=
  of_row 11 (by decide) (by simp [opcodeTable, opcodeRowsA, opcodeRowsB, opcodeRowsC, opcodeRowsD, encode, mask_or])
theorem xor (x y : Nibble) : Statement (.xor x y) :=
  of_row 12 (by decide) (by simp [opcodeTable, opcodeRowsA, opcodeRowsB, opcodeRowsC, opcodeRowsD, encode, mask_or])
theorem addReg (x y : Nibble) : Statement (.addReg x y) :=
  of_row 13 (by decide) (by simp [opcodeTable, opcodeRowsA, opcodeRowsB, opcodeRowsC, opcodeRowsD, encode, mask_or])
theorem sub (x y : Nibble) : Statement (.sub x y) :=
  of_row 14 (by decide) (by simp [opcodeTable, opcodeRowsA, opcodeRowsB, opcodeRowsC, opcodeRowsD, encode, mask_or])
theorem shr (x y : Nibble) : Statement (.shr x y) :=
  of_row 15 (by decide) (by simp [opcodeTable, opcodeRowsA, opcodeRowsB, opcodeRowsC, opcodeRowsD, encode, mask_or])
theorem subn (x y : Nibble) : Statement (.subn x y) :=
  of_row 16 (by decide) (by simp [opcodeTable, opcodeRowsA, opcodeRowsB, opcodeRowsC, opcodeRowsD, encode, mask_or])
theorem shl (x y : Nibble) : Statement (.shl x y) :=
  of_row 17 (by decide) (by simp [opcodeTable, opcodeRowsA, opcodeRowsB, opcodeRowsC, opcodeRowsD, encode, mask_or])
theorem sneReg (x y : Nibble) : Statement (.sneReg x y) :=
  of_row 18 (by decide) (by simp [opcodeTable, opcodeRowsA, opcodeRowsB, opcodeRowsC, opcodeRowsD, encode, mask_or])
theorem ldI (nnn : Addr12) : Statement (.ldI nnn) :=
  of_row 19 (by decide) (by simp [opcodeTable, opcodeRowsA, opcodeRowsB, opcodeRowsC, opcodeRowsD, encode, mask_or])
theorem jpV0 (nnn : Addr12) : Statement (.jpV0 nnn) :=
  of_row 20 (by decide) (by simp [opcodeTable, opcodeRowsA, opcodeRowsB, opcodeRowsC, opcodeRowsD, encode, mask_or])
theorem rnd (x : Nibble) (kk : Byte) : Statement (.rnd x kk) :=
  of_row 21 (by decide) (by simp [opcodeTable, opcodeRowsA, opcodeRowsB, opcodeRowsC, opcodeRowsD, encode, mask_or])
theorem drw (x y n : Nibble) : Statement (.drw x y n) :=
  of_row 22 (by decide) (by simp [opcodeTable, opcodeRowsA, opcodeRowsB, opcodeRowsC, opcodeRowsD, encode, mask_or])
theorem skp (x : Nibble) : Statement (.skp x) :=
  of_row 23 (by decide) (by simp [opcodeTable, opcodeRowsA, opcodeRowsB, opcodeRowsC, opcodeRowsD, encode, mask_or])
theorem sknp (x : Nibble) : Statement (.sknp x) :=
  of_row 24 (by decide) (by simp [opcodeTable, opcodeRowsA, opcodeRowsB, opcodeRowsC, opcodeRowsD, encode, mask_or])
theorem ldVxDt (x : Nibble) : Statement (.ldVxDt x) :=
  of_row 25 (by decide) (by simp [opcodeTable, opcodeRowsA, opcodeRowsB, opcodeRowsC, opcodeRowsD, encode, mask_or])
theorem ldVxK (x : Nibble) : Statement (.ldVxK x) :=
  of_row 26 (by decide) (by simp [opcodeTable, opcodeRowsA, opcodeRowsB, opcodeRowsC, opcodeRowsD, encode, mask_or])
theorem ldDtVx (x : Nibble) : Statement (.ldDtVx x) :=
  of_row 27 (by decide) (by simp [opcodeTable, opcodeRowsA, opcodeRowsB, opcodeRowsC, opcodeRowsD, encode, mask_or])
theorem ldStVx (x : Nibble) : Statement (.ldStVx x) :=
  of_row 28 (by decide) (by simp [opcodeTable, opcodeRowsA, opcodeRowsB, opcodeRowsC, opcodeRowsD, encode, mask_or])
theorem addIVx (x : Nibble) : Statement (.addIVx x) :=
  of_row 29 (by decide) (by simp [opcodeTable, opcodeRowsA, opcodeRowsB, opcodeRowsC, opcodeRowsD, encode, mask_or])
theorem ldFVx (x : Nibble) : Statement (.ldFVx x) :=
  of_row 30 (by decide) (by simp [opcodeTable, opcodeRowsA, opcodeRowsB, opcodeRowsC, opcodeRowsD, encode, mask_or])
theorem ldBVx (x : Nibble) : Statement (.ldBVx x) :=
  of_row 31 (by decide) (by simp [opcodeTable, opcodeRowsA, opcodeRowsB, opcodeRowsC, opcodeRowsD, encode, mask_or])
theorem ldMemVx (x : Nibble) : Statement (.ldMemVx x) :=
  of_row 32 (by decide) (by simp [opcodeTable, opcodeRowsA, opcodeRowsB, opcodeRowsC, opcodeRowsD, encode, mask_or])
theorem ldVxMem (x : Nibble) : Statement (.ldVxMem x) :=
  of_row 33 (by decide) (by simp [opcodeTable, opcodeRowsA, opcodeRowsB, opcodeRowsC, opcodeRowsD, encode, mask_or])

end Sys2Proof.Laws.EncodingPattern
end

