-- ==== Sys2Proof/Tests/Slice0.lean ====
section
/-!
SUPPORT. The model's own tests. Expected results are those of spec/95_test_vectors.md (its ids stand in the comments)
or are worked out by hand from the rule named. Each test is one step on a small state.
-/

namespace Sys2Proof.Tests

open Sys2Proof Sys2Proof.Machine

/-! ## Helpers -/

/-- The state after an outcome, if it has one. -/
def nextOf : Host.Outcome State Fault Refusal → Option State
  | .next t => some t
  | .fault _ => none
  | .refused _ => none

/-- What `look` sees after one cycle that runs the word `w`, placed at the PC of `s`. -/
def after {α : Type} (s : State) (w : Nat) (look : State → α) : Option α :=
  (nextOf (step (s.withFetchWord 16 w))).map look

/-- The reset state with some registers set. -/
def withRegs (rs : List (Nibble × Byte)) : State := rs.foldl (fun s r => setReg s r.1 r.2) State.reset

/-- The state with one byte of memory written. -/
def poke (s : State) (a : Nat) (b : Byte) : State := storeBytes s a [b]

/-- A grid with one pixel on. -/
def onePixel (row col : Nat) : Frame := (togglePixel clearFrame row col).1

/-- The state with one key pressed. -/
def press (k : Fin 16) (s : State) : State := { s with key := s.key.set k.val true k.isLt }

/-! ## Well-formedness: one term refused by each check -/

theorem test_wf_nibble_refuses_16 : nibbleOk 16 = false ∧ nibbleOk 15 = true := by decide
theorem test_wf_byte_refuses_256 : byteOk 256 = false ∧ byteOk 255 = true := by decide
theorem test_wf_addr_refuses_4096 : addrOk 4096 = false ∧ addrOk 4095 = true := by decide
theorem test_wf_drw : Instr.wellFormed (.drw 15 15 15) = true := by decide

/-! ## Decode: words written out from the encodings of R76 (fields of R71), one for every row -/

theorem test_decode_display :
    decodeWord 0x00E0 = some .cls ∧ decodeWord 0b1101_0001_0010_0101 = some (.drw 1 2 5) := by decide
theorem test_decode_flow :
    decodeWord 0x00EE = some .ret ∧ decodeWord 0b0001_1010_1011_1100 = some (.jp 0xABC) ∧
    decodeWord 0x220C = some (.call 0x20C) ∧ decodeWord 0x3342 = some (.seImm 3 0x42) ∧
    decodeWord 0x4343 = some (.sneImm 3 0x43) ∧ decodeWord 0x5120 = some (.seReg 1 2) ∧
    decodeWord 0x9120 = some (.sneReg 1 2) ∧ decodeWord 0xBF01 = some (.jpV0 0xF01) := by decide
theorem test_decode_alu_loads :
    decodeWord 0b0110_1010_0101_1100 = some (.ldImm 0xA 0x5C) ∧ decodeWord 0x7002 = some (.addImm 0 2) ∧
    decodeWord 0x8010 = some (.ldReg 0 1) ∧ decodeWord 0xC30F = some (.rnd 3 0x0F) := by decide
theorem test_decode_alu_regs :
    decodeWord 0x8011 = some (.or 0 1) ∧ decodeWord 0x8012 = some (.and 0 1) ∧ decodeWord 0x8013 = some (.xor 0 1) ∧
    decodeWord 0x8F14 = some (.addReg 0xF 1) ∧ decodeWord 0x8015 = some (.sub 0 1) ∧
    decodeWord 0x80F6 = some (.shr 0 0xF) ∧ decodeWord 0x8017 = some (.subn 0 1) ∧
    decodeWord 0x8FFE = some (.shl 0xF 0xF) := by decide
theorem test_decode_index :
    decodeWord 0xA123 = some (.ldI 0x123) ∧ decodeWord 0b1111_0010_0001_1110 = some (.addIVx 2) ∧
    decodeWord 0xF029 = some (.ldFVx 0) ∧ decodeWord 0xF233 = some (.ldBVx 2) ∧
    decodeWord 0xF155 = some (.ldMemVx 1) ∧ decodeWord 0xFF65 = some (.ldVxMem 0xF) := by decide
theorem test_decode_timers_keypad :
    decodeWord 0xE29E = some (.skp 2) ∧ decodeWord 0b1110_0000_1010_0001 = some (.sknp 0) ∧
    decodeWord 0xF107 = some (.ldVxDt 1) ∧ decodeWord 0xF20A = some (.ldVxK 2) ∧
    decodeWord 0xF015 = some (.ldDtVx 0) ∧ decodeWord 0xF018 = some (.ldStVx 0) := by decide
/-- E3 and E4. -/
theorem test_decode_no_entry :
    [0x01E0, 0x00E1, 0x0000, 0x0123, 0x5121, 0x8128, 0x812F, 0x9121, 0xE19F, 0xF100, 0xF156].map decodeWord =
      List.replicate 11 none := by decide
theorem test_decode_bytes_big_endian :
    decode [0x60, 0x2A, 0x99] = .ok (.ldImm 0 0x2A, [0x99]) ∧ decode [0x60] = .error (.tooShort 1) ∧
    decode [0x80, 0x08] = .error (.noEntry 0x8008) := by decide
theorem test_decodeTableWord : decodeTableWord 16 0xD125 = some (.drw 1 2 5) ∧ decodeTableWord 16 0x5121 = none := by
  decide
theorem test_withFetchWord_runs_it_first : after State.reset 0x6005 (fun t => (reg t 0, t.pc)) = some (5, 0x202) := by
  decide

/-! ## Display -/

/-- D1. -/
theorem test_cls :
    after { withRegs [(0xF, 0x33)] with fb := onePixel 3 5 } 0x00E0 (fun t => (pixel t.fb 3 5, reg t 0xF, t.frameChanged))
      = some (false, 0x33, true) := by decide
/-- D12: only a change from 1 to 0 is a collision. -/
theorem test_drw_no_collision :
    after { poke State.reset 0x300 0x40 with fb := onePixel 0 0, i := 0x300 } 0xD011
      (fun t => (pixel t.fb 0 0, pixel t.fb 0 1, reg t 0xF)) = some (true, true, 0) := by decide
/-- D9. -/
theorem test_drw_mem_range :
    after { State.reset with i := 0xFFE } 0xD003 (fun t => t.fault) =
      some (some ⟨.memRange, 0x200, some 0xD003, some 0x1000⟩) := by decide
/-- D13, and the last pixel. -/
theorem test_get : getPixel State.reset 64 0 = .error .pixelRange ∧ getPixel State.reset 63 31 = .ok false := by decide

/-! ## Control flow -/

/-- C1, C2. -/
theorem test_jp : after State.reset 0x1ABC (·.pc) = some 0xABC ∧ after State.reset 0x1201 (·.pc) = some 0x201 := by
  decide
/-- C3. -/
theorem test_call :
    after { State.reset with pc := 0x204 } 0x220C (fun t => (t.stack[0], t.sp.val, t.pc)) =
      some (0x206, 1, 0x20C) := by decide
/-- C4. -/
theorem test_call_overflow :
    after { State.reset with sp := 16 } 0x2300 (fun t => (t.fault, t.sp.val)) =
      some (some ⟨.stackOverflow, 0x200, some 0x2300, none⟩, 16) := by decide
/-- C6. -/
theorem test_ret :
    after { State.reset with sp := 2, stack := (State.reset.stack.set 0 0x20A).set 1 0x300 } 0x00EE
      (fun t => (t.sp.val, t.pc, t.stack[1])) = some (1, 0x300, 0x300) := by decide
/-- C5. -/
theorem test_ret_underflow :
    after State.reset 0x00EE (fun t => t.fault) = some (some ⟨.stackUnderflow, 0x200, some 0x00EE, none⟩) := by decide
/-- C7. -/
theorem test_seImm :
    after (withRegs [(3, 0x42)]) 0x3342 (·.pc) = some 0x204 ∧ after (withRegs [(3, 0x42)]) 0x3343 (·.pc) = some 0x202 := by
  decide
/-- C8. -/
theorem test_sneImm :
    after (withRegs [(3, 0x42)]) 0x4342 (·.pc) = some 0x202 ∧ after (withRegs [(3, 0x42)]) 0x4343 (·.pc) = some 0x204 := by
  decide
/-- C9, C10. -/
theorem test_seReg :
    after (withRegs [(1, 7), (2, 7)]) 0x5120 (·.pc) = some 0x204 ∧
    after (withRegs [(1, 7), (2, 8)]) 0x5120 (·.pc) = some 0x202 := by decide
/-- C9, C10. -/
theorem test_sneReg :
    after (withRegs [(1, 7), (2, 7)]) 0x9120 (·.pc) = some 0x202 ∧
    after (withRegs [(1, 7), (2, 8)]) 0x9120 (·.pc) = some 0x204 := by decide
/-- C14, C16. -/
theorem test_jpV0 :
    after (withRegs [(0, 0xFF)]) 0xBF01 (·.pc) = some 0x1000 ∧
    after (withRegs [(0, 1), (5, 0x99)]) 0xB200 (·.pc) = some 0x201 := by decide

/-! ## ALU -/

/-- A1. -/
theorem test_ldImm : after State.reset 0x6A5C (fun t => (reg t 0xA, t.pc)) = some (0x5C, 0x202) := by decide
/-- A2. -/
theorem test_addImm :
    after (withRegs [(0, 0xFF), (0xF, 0x55)]) 0x7002 (fun t => (reg t 0, reg t 0xF)) = some (1, 0x55) := by decide

/-- The start state of A3. -/
def logicStart : State := withRegs [(0, 0x0F), (1, 0xF0), (0xF, 0x55)]

/-- A3. -/
theorem test_or : after logicStart 0x8011 (fun t => (reg t 0, reg t 0xF)) = some (0xFF, 0x55) := by decide
/-- A3. -/
theorem test_and : after logicStart 0x8012 (fun t => (reg t 0, reg t 0xF)) = some (0x00, 0x55) := by decide
/-- A3. -/
theorem test_xor : after logicStart 0x8013 (fun t => (reg t 0, reg t 0xF)) = some (0xFF, 0x55) := by decide
/-- A3. -/
theorem test_ldReg : after logicStart 0x8010 (fun t => (reg t 0, reg t 0xF)) = some (0xF0, 0x55) := by decide
/-- A7: old VF is the operand. -/
theorem test_addReg :
    after (withRegs [(0, 0x10), (0xF, 0xF0)]) 0x80F4 (fun t => (reg t 0, reg t 0xF)) = some (0, 1) := by decide
/-- A6: the flag overwrites the result. -/
theorem test_addReg_into_vF : after (withRegs [(0, 1), (0xF, 0xFF)]) 0x8F04 (fun t => reg t 0xF) = some 1 := by decide
/-- A10. -/
theorem test_sub_borrow :
    after (withRegs [(1, 1)]) 0x8015 (fun t => (reg t 0, reg t 0xF)) = some (0xFF, 0) := by decide
/-- A9: strictly greater. -/
theorem test_sub_equal :
    after (withRegs [(0, 9), (1, 9), (0xF, 7)]) 0x8015 (fun t => (reg t 0, reg t 0xF)) = some (0, 0) := by decide
/-- A16. -/
theorem test_subn :
    after (withRegs [(0, 3), (1, 0xA)]) 0x8017 (fun t => (reg t 0, reg t 0xF)) = some (7, 1) := by decide
/-- A12. -/
theorem test_shr_ignores_y : after (withRegs [(0, 0xFF)]) 0x80F6 (fun t => (reg t 0, reg t 0xF)) = some (0x7F, 1) := by
  decide
/-- A13. -/
theorem test_shr_vF : after (withRegs [(0xF, 2)]) 0x8F06 (fun t => reg t 0xF) = some 0 := by decide
/-- A14. -/
theorem test_shl : after (withRegs [(0, 0x7F)]) 0x800E (fun t => (reg t 0, reg t 0xF)) = some (0xFE, 0) := by decide
/-- A15. -/
theorem test_shl_vF : after (withRegs [(0xF, 0x81)]) 0x8FFE (fun t => reg t 0xF) = some 1 := by decide
/-- A19: with the mask 0 the result is 0 for any draw. -/
theorem test_rnd_mask_zero (b : Byte) : b &&& 0 = 0 := by simp
/-- A19 on the machine: PC moves and one draw is consumed. -/
theorem test_rnd : after State.reset 0xC300 (fun t => (t.pc, t.draws)) = some (0x202, 1) := by decide

/-! ## Index and memory -/

/-- M1. -/
theorem test_ldI : after State.reset 0xA123 (·.i) = some 0x123 := by decide
/-- M3. -/
theorem test_addIVx :
    after { withRegs [(0, 1), (0xF, 9)] with i := 0xFFFF } 0xF01E (fun t => (t.i, reg t 0xF)) = some (0, 9) := by decide
/-- M5. -/
theorem test_ldFVx : after (withRegs [(0, 0xFF)]) 0xF029 (·.i) = some 0x54B := by decide
/-- M6. -/
theorem test_ldBVx :
    after { withRegs [(0, 0x9C)] with i := 0x300 } 0xF033
      (fun t => (readByte t 0x300, readByte t 0x301, readByte t 0x302, t.i)) = some (1, 5, 6, 0x300) := by decide
/-- M9. -/
theorem test_ldBVx_mem_range :
    after { withRegs [(0, 1)] with i := 0xFFE } 0xF033 (fun t => (t.fault, readByte t 0xFFE)) =
      some (some ⟨.memRange, 0x200, some 0xF033, some 0x1000⟩, 0) := by decide
/-- M10. -/
theorem test_ldMemVx :
    after { withRegs [(0, 1), (1, 2), (2, 3)] with i := 0x400 } 0xF155
      (fun t => (readByte t 0x400, readByte t 0x401, readByte t 0x402, t.i)) = some (1, 2, 0, 0x400) := by decide
/-- M13. -/
theorem test_ldMemVx_mem_range :
    after { withRegs [(0, 1)] with i := 0xFF1 } 0xFF55 (fun t => (t.fault, readByte t 0xFF1)) =
      some (some ⟨.memRange, 0x200, some 0xFF55, some 0x1000⟩, 0) := by decide
/-- M14 in part, FONT default. -/
theorem test_ldVxMem :
    after { State.reset with i := 0x050 } 0xFF65 (fun t => (reg t 0, reg t 5, reg t 0xF, t.i)) =
      some (0xF0, 0x20, 0xF0, 0x050) := by decide
/-- M15: the lowest offending address can be `I` itself. -/
theorem test_ldVxMem_mem_range :
    after { State.reset with i := 0x2000 } 0xF065 (fun t => t.fault) =
      some (some ⟨.memRange, 0x200, some 0xF065, some 0x2000⟩) := by decide

/-! ## Timers and keypad -/

/-- T6. -/
theorem test_skp : after (press 5 (withRegs [(0, 5)])) 0xE09E (·.pc) = some 0x204 := by decide
/-- T8. -/
theorem test_skp_key_range :
    after (withRegs [(0, 0x10)]) 0xE09E (fun t => t.fault) =
      some (some ⟨.keyRange, 0x200, some 0xE09E, some 0x10⟩) := by decide
/-- T6, T7. -/
theorem test_sknp :
    after (press 5 (withRegs [(0, 5)])) 0xE0A1 (·.pc) = some 0x202 ∧
    after (withRegs [(0, 5)]) 0xE0A1 (·.pc) = some 0x204 := by decide
/-- T1. -/
theorem test_ldVxDt : after { State.reset with dt := 3 } 0xF007 (fun t => (reg t 0, t.dt)) = some (3, 2) := by decide
/-- T9. -/
theorem test_ldVxK_waits :
    after { State.reset with dt := 3 } 0xF00A (fun t => (t.pc, reg t 0, t.dt, t.frameChanged)) =
      some (0x200, 0, 2, false) := by decide
/-- T10. -/
theorem test_ldVxK_lowest :
    after (press 7 (press 0xB State.reset)) 0xF20A (fun t => (reg t 2, t.pc)) = some (7, 0x202) := by decide
/-- T2. -/
theorem test_ldDtVx : after (withRegs [(0, 5)]) 0xF015 (·.dt) = some 4 := by decide
/-- T4. -/
theorem test_ldStVx : after (withRegs [(0, 1)]) 0xF018 (fun t => (t.st, t.soundExpired)) = some (0, true) := by decide
/-- T5: a direct write of 0 is not an expiry. -/
theorem test_ldStVx_zero :
    after { State.reset with st := 7 } 0xF018 (fun t => (t.st, t.soundExpired)) = some (0, false) := by decide

/-! ## The cycle -/

/-- Y2: an odd PC is no fault. -/
theorem test_odd_pc : after { State.reset with pc := 0x201 } 0x6007 (fun t => (reg t 0, t.pc)) = some (7, 0x203) := by
  decide
/-- Y4. -/
theorem test_fetch_range :
    (nextOf (step { State.reset with pc := 0xFFF })).map (·.fault) = some (some ⟨.fetchRange, 0xFFF, none, none⟩) := by
  decide
/-- Y9: a faulting cycle counts no timer. -/
theorem test_illegal_keeps_dt :
    after { State.reset with dt := 5 } 0x8008 (fun t => (t.dt, t.fault)) =
      some (5, some ⟨.illegalOpcode, 0x200, some 0x8008, none⟩) := by decide
/-- Y8. -/
theorem test_halted_has_no_step : (nextOf (step { State.reset with halted := true })).isNone = true := by decide
/-- The codes of R211. -/
theorem test_cause_codes :
    [Cause.illegalOpcode, .fetchRange, .memRange, .stackOverflow, .stackUnderflow, .keyRange].map causeCode =
      [1, 2, 3, 4, 5, 6] := by decide

/-! ## Witnesses: states and operands that meet the hypotheses of each statement, at the boundaries of its clauses -/

/-- The reset state with the word `w` at PC. -/
def loaded (w : Nat) : State := State.reset.withFetchWord 16 w

/-- A memory that lists one byte. -/
def oneByte : Memory := [(0x300, 1)]

/-- A halted state that meets the invariant. -/
def haltedState : State := haltedWith State.reset ⟨.illegalOpcode, 0x200, some 0, none⟩

theorem witness_EncodeRebuildsEveryDecodedWord : decodeWord 0x80F6 = some (.shr 0 0xF) := by decide
theorem witness_AtMostOneRowMatchesAnOpcode :
    (∃ r ∈ opcodeTable, (0x8014 : Word) &&& r.mask = r.pattern) ∧
    (∀ r ∈ opcodeTable, (0x0000 : Word) &&& r.mask ≠ r.pattern) := by decide
theorem witness_OpcodeTableSelectsEachInstruction :
    List.Forall (fun c : Word × Word × Word => c.1 &&& c.2.1 = c.2.2)
      [(0x1FFF, 0xF000, 0x1000), (0x2FFF, 0xF000, 0x2000), (0x3FFF, 0xF000, 0x3000), (0x4FFF, 0xF000, 0x4000),
       (0x5FF0, 0xF00F, 0x5000), (0x6FFF, 0xF000, 0x6000), (0x7FFF, 0xF000, 0x7000), (0x8FF0, 0xF00F, 0x8000),
       (0x8FF1, 0xF00F, 0x8001), (0x8FF2, 0xF00F, 0x8002), (0x8FF3, 0xF00F, 0x8003), (0x8FF4, 0xF00F, 0x8004)] ∧
    List.Forall (fun c : Word × Word × Word => c.1 &&& c.2.1 = c.2.2)
      [(0x8FF5, 0xF00F, 0x8005), (0x8FF6, 0xF00F, 0x8006), (0x8FF7, 0xF00F, 0x8007), (0x8FFE, 0xF00F, 0x800E),
       (0x9FF0, 0xF00F, 0x9000), (0xAFFF, 0xF000, 0xA000), (0xBFFF, 0xF000, 0xB000), (0xCFFF, 0xF000, 0xC000),
       (0xDFFF, 0xF000, 0xD000), (0xEF9E, 0xF0FF, 0xE09E), (0xEFA1, 0xF0FF, 0xE0A1)] ∧
    List.Forall (fun c : Word × Word × Word => c.1 &&& c.2.1 = c.2.2)
      [(0xFF07, 0xF0FF, 0xF007), (0xFF0A, 0xF0FF, 0xF00A), (0xFF15, 0xF0FF, 0xF015), (0xFF18, 0xF0FF, 0xF018),
       (0xFF1E, 0xF0FF, 0xF01E), (0xFF29, 0xF0FF, 0xF029), (0xFF33, 0xF0FF, 0xF033), (0xFF55, 0xF0FF, 0xF055),
       (0xFF65, 0xF0FF, 0xF065)] := by decide

theorem witness_StepRunsTheDecodedInstruction : runsNext (loaded 0x6005) (.ldImm 0 5) := by unfold runsNext; decide
/-- The last PC that can be fetched, and the first that can't. -/
theorem witness_FetchIsBigEndianAndRangeChecked :
    let s := { State.reset with pc := 0xFFE }.withFetchWord 16 0x6001
    s.halted = false ∧ s.pc.toNat < 0xFFF ∧
    (0x6001 : Word).toNat = (readByte s s.pc.toNat).toNat * 256 + (readByte s (s.pc.toNat + 1)).toNat ∧
    decodeWord 0x6001 = some (.ldImm 0 1) ∧ 0xFFF ≤ ({ State.reset with pc := 0xFFF } : State).pc.toNat := by decide
theorem witness_IllegalOpcodeHaltsWithOpcodeAndPc :
    let s := { State.reset with pc := 0xFFE }
    s.halted = false ∧ s.pc.toNat < 0xFFF ∧
    (0 : Word).toNat = (readByte s s.pc.toNat).toNat * 256 + (readByte s (s.pc.toNat + 1)).toNat ∧
    decodeWord 0 = none := by decide
theorem witness_FaultEntryIsPrecise : ∃ t, step (loaded 0x00EE) = .next t ∧ t.halted = true := ⟨_, rfl, by decide⟩
theorem witness_FaultEntryIsPrecise_range : ∃ t, step { loaded 0xF065 with i := 0x1000 } = .next t ∧ t.halted = true :=
  ⟨_, rfl, by decide⟩
theorem witness_FaultEntryIsPrecise_fetch : ∃ t, step { State.reset with pc := 0xFFF } = .next t ∧ t.halted = true :=
  ⟨_, rfl, by decide⟩
theorem witness_OnlyResetEndsTheHaltedState :
    haltedState.halted = true ∧ Action.reset ∉ [Action.cycle, .keys (Vector.replicate 16 true), .load [0x12]] := by decide
theorem witness_CycleEndCountsTimersAndSetsOutputs :
    ∃ t, runsNext (loaded 0x6005) (.ldImm 0 5) ∧ exec (.ldImm 0 5) (loaded 0x6005) = .next t ∧ t.halted = false :=
  ⟨_, by unfold runsNext; decide, rfl, by decide⟩
theorem witness_CycleEndCountsTimersAndSetsOutputs_fault : ∃ u, step State.reset = .next u ∧ u.halted = true :=
  ⟨_, rfl, by decide⟩
theorem witness_EveryRunningCycleHasANextState : State.reset.halted = false := by decide

theorem witness_ClsTurnsEveryPixelOff : runsNext (loaded 0x00E0) .cls := by unfold runsNext; decide
theorem witness_DrwXorsTheSpriteAndSetsCollision_runs :
    runsNext (loaded 0xD010) (.drw 0 1 0) ∧ runsNext { loaded 0xD01F with i := 0xFF1 } (.drw 0 1 15) := by
  unfold runsNext; decide
/-- No row; the last byte of memory; one byte too far. -/
theorem witness_DrwXorsTheSpriteAndSetsCollision :
    (0 : Nibble).toNat = 0 ∧ (0xFF1 : Word).toNat + (0xF : Nibble).toNat ≤ 0x1000 ∧
    ((1 : Nibble).toNat ≠ 0 ∧ 0x1000 < (0x1000 : Word).toNat + (1 : Nibble).toNat) := by decide
theorem witness_DrwXorsTheSpriteAndSetsCollision_covers :
    let s : State := { poke State.reset 0x300 0x81 with i := 0x300 }
    spriteCovers s 0 0 1 0 7 ∧ ¬spriteCovers s 0 0 1 0 6 := by
  refine ⟨⟨0, 7, by decide⟩, ?_⟩
  rintro ⟨r, c, hr, hc, hb, -, hcol⟩
  obtain rfl : r = 0 := by change r < 1 at hr; omega
  obtain rfl : c = 6 := by change 6 = 0 + c at hcol; omega
  exact absurd hb (by decide)
/-- The corner pixel of the grid is drawn from column 63, row 31, and nothing from column 64 or row 32. -/
theorem witness_CompositeSpriteClipsAndReportsCollision :
    pixel (compositeSprite clearFrame 63 31 [0x80]).1 31 63 = true ∧
    (compositeSprite clearFrame 64 0 [0x80]).2 = false ∧ (compositeSprite clearFrame 0 32 [0x80]).2 = false := by decide
theorem witness_GetReadsThePixelOrReportsPixelRange : 31 < 32 ∧ 63 < 64 ∧ (64 ≤ 64 ∨ 32 ≤ 0) ∧ (64 ≤ 0 ∨ 32 ≤ 32) := by
  decide
/-- The last byte of the buffer. -/
theorem witness_PackedColorScalesEachPixelByChannel : 31 < 32 ∧ 63 < 64 ∧ 2 < 3 ∧ 3 * (31 * 64 + 63) + 2 = 6143 := by
  decide

theorem witness_CallPushesTheNextAddressOrOverflows :
    (15 : Fin 17).val < 16 ∧ ({ State.reset with sp := 16 } : State).sp.val = 16 := by decide
theorem witness_RetPopsItsTargetOrUnderflows : 0 < (1 : Fin 17).val ∧ 0 < (16 : Fin 17).val ∧ State.reset.sp.val = 0 := by
  decide
theorem witness_RetReturnsAfterItsCall :
    ∃ t, ({ State.reset with sp := 15 } : State).sp.val < 16 ∧
      exec (.call 0x20C) { State.reset with sp := 15 } = .next t ∧ t.sp = t.sp ∧ t.stack[15] = t.stack[15] :=
  ⟨_, by decide, rfl, rfl, rfl⟩
theorem witness_RegisterSkipsCompareTheRegisters : (0xF : Nibble) ≠ 0 ∧ (1 : Nibble) ≠ 0 := by decide
/-- C12: taken at 0xFFC. -/
theorem witness_SkippingPastTheEndFaultsAtTheNextFetch :
    ∃ t, isSkip (.seImm 0 0) = true ∧ runsNext ({ State.reset with pc := 0xFFC }.withFetchWord 16 0x3000) (.seImm 0 0) ∧
      step ({ State.reset with pc := 0xFFC }.withFetchWord 16 0x3000) = .next t ∧ t.halted = false ∧
      t.pc = 0xFFC + 4 ∧ 0xFFC ≤ (0xFFC : Word).toNat :=
  ⟨_, by decide, by unfold runsNext; decide, rfl, by decide⟩
/-- Not taken at 0xFFD. -/
theorem witness_SkippingPastTheEndFaultsAtTheNextFetch_not_taken :
    ∃ t, isSkip (.seImm 0 1) = true ∧ runsNext ({ State.reset with pc := 0xFFD }.withFetchWord 16 0x3001) (.seImm 0 1) ∧
      step ({ State.reset with pc := 0xFFD }.withFetchWord 16 0x3001) = .next t ∧ t.halted = false ∧
      t.pc = 0xFFD + 2 ∧ 0xFFD ≤ (0xFFD : Word).toNat :=
  ⟨_, by decide, by unfold runsNext; decide, rfl, by decide⟩

/-- A destination that is not VF, for the value clauses of the flag instructions. -/
theorem witness_AddRegisterSetsCarryLast : (0xE : Nibble) ≠ vF := by decide
theorem witness_SubtractionsSetStrictlyGreaterLast : (0 : Nibble) ≠ vF := by decide
theorem witness_ShiftsSetTheBitShiftedOutLast : (1 : Nibble) ≠ vF := by decide
theorem witness_FlagInstructionsLeaveABitInVF :
    ∃ t, writesFlag (.addReg 0xF 1) = true ∧ exec (.addReg 0xF 1) State.reset = .next t ∧ t.halted = false :=
  ⟨_, by decide, rfl, by decide⟩

/-- The last byte stored at 0xFFF, and at 0x1000. -/
theorem witness_BcdStoresThreeDigits : (0xFFD : Word).toNat + 2 ≤ 0xFFF ∧ 0xFFF < (0xFFE : Word).toNat + 2 := by decide
theorem witness_StoreRegistersWritesV0ToVx :
    (0xFF0 : Word).toNat + (0xF : Nibble).toNat ≤ 0xFFF ∧ 0xFFF < (0xFF1 : Word).toNat + (0xF : Nibble).toNat ∧
    (0xF : Nibble).toNat ≤ (0xF : Nibble).toNat := by decide
theorem witness_LoadRegistersReadsV0ToVx :
    (0xFFF : Word).toNat + (0 : Nibble).toNat ≤ 0xFFF ∧ 0xFFF < (0x1000 : Word).toNat + (0 : Nibble).toNat ∧
    (0 : Nibble).toNat < (1 : Nibble).toNat := by decide
theorem witness_OnlyThreeInstructionsWriteI : ∃ t, exec (.addIVx 0) { State.reset with i := 0xFFFF } = .next t :=
  ⟨_, rfl⟩
theorem witness_StoredBytesAreTheNextOpcode :
    let s : State := { loaded 0xF155 with i := 0x202 }
    runsNext s (.ldMemVx 1) ∧ s.i.toNat + (1 : Nibble).toNat ≤ 0xFFF ∧ (0 : Nibble).toNat + 1 ≤ (1 : Nibble).toNat ∧
    s.i.toNat + (0 : Nibble).toNat = s.pc.toNat + 2 := by unfold runsNext; decide

theorem witness_KeySkipsTestTheKeyOrRaiseKeyRange :
    (reg (withRegs [(0, 0xF)]) 0).toNat < 16 ∧ 0xF < (reg (withRegs [(0, 0x10)]) 0).toNat := by decide
/-- The last key is the least one pressed; no key is pressed. -/
theorem witness_KeyWaitTakesTheLeastKeyOrHoldsPc :
    ((press 15 State.reset).key[15] = true ∧ ∀ j (hj : j < 15), (press 15 State.reset).key[j] = false) ∧
    (∀ k (hk : k < 16), State.reset.key[k] = false) := by decide
theorem witness_KeyWaitTakesTheLeastKeyOrHoldsPc_runs : runsNext (loaded 0xF00A) (.ldVxK 0) := by unfold runsNext; decide
theorem witness_TimerMovesCopyTheByte :
    runsNext (loaded 0xFF07) (.ldVxDt 0xF) ∧ runsNext (loaded 0xF015) (.ldDtVx 0) ∧ runsNext (loaded 0xF018) (.ldStVx 0) := by
  unfold runsNext; decide
theorem witness_KeyWaitHoldsUntilAKeyIsPressed :
    runsNext (loaded 0xF20A) (.ldVxK 2) ∧ ∀ k (hk : k < 16), (loaded 0xF20A).key[k] = false := by
  unfold runsNext; decide
theorem witness_DelayTimerReadsBackOneLower :
    ∃ t, runsNext (poke (poke (loaded 0xF015) 0x202 0xF1) 0x203 0x07) (.ldDtVx 0) ∧
      step (poke (poke (loaded 0xF015) 0x202 0xF1) 0x203 0x07) = .next t ∧ runsNext t (.ldVxDt 1) :=
  ⟨_, by unfold runsNext; decide, rfl, by unfold runsNext; decide⟩

theorem witness_EveryInstructionMovesPcByItsRule : ∃ t, exec (.jp 0xABC) State.reset = .next t ∧ t.halted = false :=
  ⟨_, rfl, by decide⟩
theorem witness_EachInstructionChangesOnlyItsOwnParts : ∃ t, exec (.ldVxMem 3) State.reset = .next t := ⟨_, rfl⟩
theorem witness_OtherInstructionsDoNotReadTheKeypad :
    ∃ t, readsKeypad (.call 0x300) = false ∧ exec (.call 0x300) State.reset = .next t := ⟨_, by decide, rfl⟩
theorem witness_NoInstructionReadsTheSoundTimer : ∃ t, exec (.ldStVx 0) State.reset = .next t := ⟨_, rfl⟩
theorem witness_CanonicalMemoriesWithEqualBytesAreEqual :
    Memory.wf oneByte = true ∧ Memory.wf (Memory.write [] 0x300 1) = true ∧
    ∀ a, Memory.read oneByte a = Memory.read (Memory.write [] 0x300 1) a :=
  ⟨by decide, by decide, fun _ => rfl⟩
theorem witness_EveryStepKeepsTheInvariant : ∃ t, StateInv (loaded 0x6005) ∧ step (loaded 0x6005) = .next t :=
  ⟨_, by decide, rfl⟩
theorem witness_EveryHostSequenceKeepsTheInvariant : StateInv haltedState := by decide
/-- The record of a halted state is checked: a wrong opcode, address or PC breaks the invariant. -/
theorem test_invariant_refuses_wrong_records :
    invHolds (haltedWith State.reset ⟨.illegalOpcode, 0x200, some 0x6005, none⟩) = false ∧
    invHolds (haltedWith State.reset ⟨.memRange, 0x200, some 0xF065, some 0xFFF⟩) = false ∧
    invHolds (haltedWith State.reset ⟨.stackUnderflow, 0x202, some 0x00EE, none⟩) = false ∧
    invHolds { State.reset with mem := [(0x300, 0)] } = false := by decide

theorem witness_LoadProgramPlacesTheRomOrFails :
    ([] : List Byte).length = 0 ∧ 3583 < (List.replicate 3584 (0xAA : Byte)).length ∧
    1 ≤ ([0x12] : List Byte).length ∧ (List.replicate 3583 (0xAA : Byte)).length ≤ 3583 := by
  rw [List.length_replicate, List.length_replicate]; decide
/-- The edges of the font in the reset content, FONT default. -/
theorem test_reset_memory_edges :
    [0x04F, 0x050, 0x09F, 0x0A0].map (readByte State.reset) = [0x00, 0xF0, 0x80, 0x00] := by decide
/-- R-1 with a FONT of its own (hand-made): Reset of a halted block stores the bytes of the FONT it is given. -/
theorem test_reset_stores_the_given_font :
    [0x04F, 0x050, 0x09F, 0x0A0].map (readByte (act (Vector.replicate 80 0xA5) .reset haltedState)) =
      [0x00, 0xA5, 0xA5, 0x00] := by decide

end Sys2Proof.Tests
end

/-!
The statements about the state of the block (10_state.md): a flag is one bit, what each instruction does to PC, what it
leaves unchanged, what it does not read, the canonical memory, and Reset.
-/

namespace Sys2Proof.Machine

/-! ## What an instruction that can fault leaves: its effect, or a fault entry -/

/-- A transfer at I ends in its state `done` or in MEM_RANGE (R53). -/
theorem withBytesAtI_next {i : Instr} {n : Nat} {s done t : State} (h : withBytesAtI i n s done = .next t) :
    t = done ∨ ∃ a, t = enterFault s .memRange (some (encode i)) (some a) := by
  rcases withBytesAtI_cases i n s done with ⟨he, -⟩ | ⟨he, -⟩ <;> rw [he] at h <;> cases h
  · exact .inl rfl
  · exact .inr ⟨_, rfl⟩

/-- A key skip tests the key `Vx`, or raises KEY_RANGE (R190). -/
theorem keySkip_next {i : Instr} {x : Nibble} {want : Bool} {s t : State} (h : keySkip i x want s = .next t) :
    (∃ down, keyAt s (reg s x) = some down ∧ t = skipIf (down == want) s) ∨
      t = enterFault s .keyRange (some (encode i)) (some (reg s x).toNat) := by
  unfold keySkip at h
  split at h <;> cases h
  · next down hk => exact .inl ⟨down, hk, rfl⟩
  · exact .inr rfl

theorem execRet_of_pos {s : State} (hs : 0 < s.sp.val) : execRet s = .next (jumpTo (pop s hs) (stackTop s hs)) :=
  dif_pos hs

theorem execRet_of_empty {s : State} (hs : ¬0 < s.sp.val) :
    execRet s = .next (enterFault s .stackUnderflow (some (encode .ret)) none) :=
  dif_neg hs

theorem execCall_of_lt {nnn : Addr12} {s : State} (hs : s.sp.val < 16) :
    execCall nnn s = .next (jumpTo (push s (s.pc + 2) hs) (zextAddr nnn)) :=
  dif_pos hs

theorem execCall_of_full {nnn : Addr12} {s : State} (hs : ¬s.sp.val < 16) :
    execCall nnn s = .next (enterFault s .stackOverflow (some (encode (.call nnn))) none) :=
  dif_neg hs

/-- RET pops its target, or raises STACK_UNDERFLOW (R122). -/
theorem execRet_next {s t : State} (h : execRet s = .next t) :
    (∃ hs : 0 < s.sp.val, t = jumpTo (pop s hs) (stackTop s hs)) ∨
      t = enterFault s .stackUnderflow (some (encode .ret)) none := by
  by_cases hs : 0 < s.sp.val
  · rw [execRet_of_pos hs] at h
    cases h
    exact .inl ⟨hs, rfl⟩
  · rw [execRet_of_empty hs] at h
    cases h
    exact .inr rfl

/-- CALL pushes and jumps, or raises STACK_OVERFLOW (R121). -/
theorem execCall_next {nnn : Addr12} {s t : State} (h : execCall nnn s = .next t) :
    (∃ hs : s.sp.val < 16, t = jumpTo (push s (s.pc + 2) hs) (zextAddr nnn)) ∨
      t = enterFault s .stackOverflow (some (encode (.call nnn))) none := by
  by_cases hs : s.sp.val < 16
  · rw [execCall_of_lt hs] at h
    cases h
    exact .inl ⟨hs, rfl⟩
  · rw [execCall_of_full hs] at h
    cases h
    exact .inr rfl

/-- LD Vx, K takes the least key, or leaves the state as it is (R194). -/
theorem execLdVxK_next {x : Nibble} {s t : State} (h : execLdVxK x s = .next t) :
    (∃ k, leastKey s = some k ∧ t = nextInstr (setReg s x (BitVec.ofNat 8 k))) ∨ leastKey s = none ∧ t = s := by
  unfold execLdVxK at h
  split at h <;> cases h
  · next k hk => exact .inl ⟨k, hk, rfl⟩
  · next hk => exact .inr ⟨hk, rfl⟩

/-! ## The flag is one bit (R21, R22) -/

theorem bitByte_eq_zero_or_one (p : Bool) : bitByte p = 0 ∨ bitByte p = 1 := by
  cases p
  · exact .inl rfl
  · exact .inr rfl

/-- VF after a result and then the flag is the flag, whatever the destination (R140). -/
@[simp] theorem reg_vF_setRegFlag (s : State) (x : Nibble) (b f : Byte) : reg (setRegFlag s x b f) vF = f := by
  simp [reg_setRegFlag]

/-- Settles O34: the last register write of each of these instructions is VF, and its value is a `bitByte`. -/
theorem flagInstructionsLeaveABitInVF : Obligations.FlagInstructionsLeaveABitInVF := by
  intro i s t hi he ht
  cases i with
  | addReg x y | sub x y | subn x y | shr x y | shl x y =>
    cases he
    rw [reg_nextInstr, reg_vF_setRegFlag]
    exact bitByte_eq_zero_or_one _
  | drw x y n =>
    obtain rfl | ⟨a, rfl⟩ := withBytesAtI_next he
    · rw [reg_nextInstr, reg_setReg, if_pos rfl]
      exact bitByte_eq_zero_or_one _
    · simp at ht
  | _ => cases hi

/-! ## The new PC (R24) -/

/-- An entry that `keyAt` reads is the one at that place of the keypad. -/
theorem getD_key_of_keyAt {s : State} {k : Byte} {down : Bool} (h : keyAt s k = some down) :
    s.key.toList.getD k.toNat false = down := by
  rw [List.getD_eq_getElem?_getD, ← keyAt, h, Option.getD_some]

/-- There is no least key exactly when no key is pressed (R194). -/
theorem leastKey_eq_none_iff_not_mem {s : State} : leastKey s = none ↔ true ∉ s.key.toList := by
  rw [leastKey, leastKeyFrom_eq_none]
  simp only [← Bool.not_eq_true]
  exact ⟨fun h hm => h true hm rfl, fun h b hb hbt => h (hbt ▸ hb)⟩

/-- The entry the next RET reads, as an entry of the list of entries (R27). -/
theorem stackTop_eq_getD (s : State) (h : 0 < s.sp.val) : stackTop s h = s.stack.toList.getD (s.sp.val - 1) 0 := by
  have hlt : s.sp.val - 1 < 16 := by omega
  simp [stackTop, hlt]

/-- Settles O46: each instruction's effect ends in `nextInstr`, `skipIf` or `jumpTo`, which write PC; a fault entry is
excluded because the instruction did not fault. -/
theorem everyInstructionMovesPcByItsRule : Obligations.EveryInstructionMovesPcByItsRule := by
  intro i s t he ht
  cases i with
  | ret =>
    obtain ⟨hs, rfl⟩ | rfl := execRet_next he
    · exact stackTop_eq_getD s hs
    · simp at ht
  | call nnn =>
    obtain ⟨hs, rfl⟩ | rfl := execCall_next he
    · rfl
    · simp at ht
  | seImm x kk | sneImm x kk | seReg x y | sneReg x y => cases he; simp
  | skp x | sknp x =>
    obtain ⟨down, hk, rfl⟩ | rfl := keySkip_next he
    · simp only [skipIf_pc, getD_key_of_keyAt hk]
      cases down <;> rfl
    · simp at ht
  | ldVxK x =>
    obtain ⟨k, hk, rfl⟩ | ⟨hk, rfl⟩ := execLdVxK_next he
    · have hm : true ∈ s.key.toList := by
        by_contra hm
        simp [leastKey_eq_none_iff_not_mem.mpr hm] at hk
      exact (if_pos hm).symm
    · exact (if_neg (leastKey_eq_none_iff_not_mem.mp hk)).symm
  | drw x y n | ldBVx x | ldMemVx x | ldVxMem x =>
    obtain rfl | ⟨a, rfl⟩ := withBytesAtI_next he
    · simp
    · simp at ht
  | _ => cases he; rfl

/-! ## The frame: one rule per operation

Each rule appends one operation to a run that kept the frame so far, so that `simp` reads the frame of an instruction off
the operations it is made of. -/

section Frame

variable {parts : List Part} {s t : State}

@[simp] theorem onlyChanges_refl (parts : List Part) (s : State) : onlyChanges parts s s := by
  intro p _
  cases p with
  | regs | memory => exact fun _ => rfl
  | faults | outputs => exact ⟨rfl, rfl⟩
  | _ => rfl

@[simp] theorem onlyChanges_setReg (x : Nibble) (b : Byte) (hw : .regs ∈ parts) (h : onlyChanges parts s t) :
    onlyChanges parts s (setReg t x b) := by
  intro p hp
  cases p with
  | regs => exact absurd hw hp
  | _ => exact h _ hp

@[simp] theorem onlyChanges_setRegFlag (x : Nibble) (b f : Byte) (hw : .regs ∈ parts) (h : onlyChanges parts s t) :
    onlyChanges parts s (setRegFlag t x b f) :=
  onlyChanges_setReg _ _ hw (onlyChanges_setReg _ _ hw h)

@[simp] theorem onlyChanges_setRegsFrom (k : Nat) (bs : List Byte) (hw : .regs ∈ parts) (h : onlyChanges parts s t) :
    onlyChanges parts s (setRegsFrom t k bs) := by
  induction bs generalizing t k with
  | nil => exact h
  | cons b bs ih => exact ih _ (onlyChanges_setReg _ _ hw h)

@[simp] theorem onlyChanges_setIndex (w : Word) (hw : .index ∈ parts) (h : onlyChanges parts s t) :
    onlyChanges parts s (setIndex t w) := by
  intro p hp
  cases p with
  | index => exact absurd hw hp
  | _ => exact h _ hp

@[simp] theorem onlyChanges_setDelay (b : Byte) (hw : .delayTimer ∈ parts) (h : onlyChanges parts s t) :
    onlyChanges parts s (setDelay t b) := by
  intro p hp
  cases p with
  | delayTimer => exact absurd hw hp
  | _ => exact h _ hp

@[simp] theorem onlyChanges_setSound (b : Byte) (hw : .soundTimer ∈ parts) (h : onlyChanges parts s t) :
    onlyChanges parts s (setSound t b) := by
  intro p hp
  cases p with
  | soundTimer => exact absurd hw hp
  | _ => exact h _ hp

@[simp] theorem onlyChanges_setFrame (f : Frame) (hw : .display ∈ parts) (h : onlyChanges parts s t) :
    onlyChanges parts s (setFrame t f) := by
  intro p hp
  cases p with
  | display => exact absurd hw hp
  | _ => exact h _ hp

@[simp] theorem onlyChanges_storeBytes (a : Nat) (bs : List Byte) (hw : .memory ∈ parts) (h : onlyChanges parts s t) :
    onlyChanges parts s (storeBytes t a bs) := by
  intro p hp
  cases p with
  | memory => exact absurd hw hp
  | _ => exact h _ hp

@[simp] theorem onlyChanges_consumeDraw (hw : .draws ∈ parts) (h : onlyChanges parts s t) :
    onlyChanges parts s (consumeDraw t) := by
  intro p hp
  cases p with
  | draws => exact absurd hw hp
  | _ => exact h _ hp

@[simp] theorem onlyChanges_jumpTo (w : Word) (hw : .pc ∈ parts) (h : onlyChanges parts s t) :
    onlyChanges parts s (jumpTo t w) := by
  intro p hp
  cases p with
  | pc => exact absurd hw hp
  | _ => exact h _ hp

@[simp] theorem onlyChanges_nextInstr (hw : .pc ∈ parts) (h : onlyChanges parts s t) :
    onlyChanges parts s (nextInstr t) :=
  onlyChanges_jumpTo (t.pc + 2) hw h

@[simp] theorem onlyChanges_skipIf (taken : Bool) (hw : .pc ∈ parts) (h : onlyChanges parts s t) :
    onlyChanges parts s (skipIf taken t) := by
  cases taken
  · exact onlyChanges_nextInstr hw h
  · exact onlyChanges_jumpTo (t.pc + 4) hw h

@[simp] theorem onlyChanges_push (w : Word) (hs : t.sp.val < 16) (hsp : .sp ∈ parts) (hst : .stack ∈ parts)
    (h : onlyChanges parts s t) : onlyChanges parts s (push t w hs) := by
  intro p hp
  cases p with
  | sp => exact absurd hsp hp
  | stack => exact absurd hst hp
  | _ => exact h _ hp

@[simp] theorem onlyChanges_pop (hs : 0 < t.sp.val) (hw : .sp ∈ parts) (h : onlyChanges parts s t) :
    onlyChanges parts s (pop t hs) := by
  intro p hp
  cases p with
  | sp => exact absurd hw hp
  | _ => exact h _ hp

@[simp] theorem onlyChanges_enterFault (c : Cause) (op : Option Word) (a : Option Nat) (hw : .faults ∈ parts)
    (h : onlyChanges parts s t) : onlyChanges parts s (enterFault t c op a) := by
  intro p hp
  cases p with
  | faults => exact absurd hw hp
  | _ => exact h _ hp

end Frame

/-- Of the parts of the state an instruction changes its own, PC and the fault state (R22, R26 to R32, R57, R100). -/
theorem exec_onlyChanges {i : Instr} {s t : State} (he : exec i s = .next t) :
    onlyChanges (.pc :: .faults :: writesParts i) s t := by
  cases i with
  | ret =>
    obtain ⟨hs, rfl⟩ | rfl := execRet_next he <;> simp [writesParts]
  | call nnn =>
    obtain ⟨hs, rfl⟩ | rfl := execCall_next he <;> simp [writesParts]
  | skp x | sknp x =>
    obtain ⟨down, -, rfl⟩ | rfl := keySkip_next he <;> simp
  | ldVxK x =>
    obtain ⟨k, -, rfl⟩ | ⟨-, rfl⟩ := execLdVxK_next he <;> simp [writesParts]
  | ldBVx x | ldMemVx x | ldVxMem x =>
    obtain rfl | ⟨a, rfl⟩ := withBytesAtI_next he <;> simp [writesParts]
  | drw x y n =>
    obtain rfl | ⟨a, rfl⟩ := withBytesAtI_next he
    · have hf (fb : Frame) : onlyChanges (.pc :: .faults :: writesParts (.drw x y n)) s (setFrame s fb) :=
        onlyChanges_setFrame _ (by simp [writesParts]) (onlyChanges_refl _ s)
      exact onlyChanges_nextInstr (by simp) (onlyChanges_setReg _ _ (by simp [writesParts]) (hf _))
    · simp
  | rnd x kk =>
    cases he
    have hr (b : Byte) : onlyChanges (.pc :: .faults :: writesParts (.rnd x kk)) s (setReg s x b) :=
      onlyChanges_setReg _ _ (by simp [writesParts]) (onlyChanges_refl _ s)
    exact onlyChanges_nextInstr (by simp) (onlyChanges_consumeDraw (by simp [writesParts]) (hr _))
  | _ => cases he; simp [writesParts]

/-! ## The registers an instruction keeps -/

section Registers

variable {written : List Nibble} {s t : State}

theorem regsKept_refl (written : List Nibble) (s : State) : regsKept written s s := fun _ _ => rfl

/-- What does not change the registers keeps them. -/
theorem regsKept_of_onlyChanges {parts : List Part} (h : onlyChanges parts s t) (hr : .regs ∉ parts) :
    regsKept written s t := fun r _ => h .regs hr r

theorem regsKept_setReg (x : Nibble) (b : Byte) (hx : x ∈ written) (h : regsKept written s t) :
    regsKept written s (setReg t x b) := by
  intro r hr
  have hne : x ≠ r := fun e => hr (e ▸ hx)
  rw [reg_setReg, if_neg hne, h r hr]

theorem regsKept_setRegsFrom (k : Nat) (bs : List Byte) (hw : ∀ j < bs.length, BitVec.ofNat 4 (k + j) ∈ written)
    (h : regsKept written s t) : regsKept written s (setRegsFrom t k bs) := by
  induction bs generalizing t k with
  | nil => exact h
  | cons b bs ih =>
    refine ih (k + 1) (fun j hj => ?_) (regsKept_setReg _ b (hw 0 (Nat.succ_pos _)) h)
    rw [Nat.add_right_comm]
    exact hw (j + 1) (Nat.succ_lt_succ hj)

end Registers

/-- Of the registers an instruction changes its destinations (R22, R72). -/
theorem exec_regsKept {i : Instr} {s t : State} (he : exec i s = .next t) : regsKept (destinations i) s t := by
  cases i with
  | ldImm x _ | addImm x _ | ldReg x _ | or x _ | and x _ | xor x _ | rnd x _ | ldVxDt x =>
    cases he
    exact regsKept_setReg x _ (by simp [destinations]) (regsKept_refl _ s)
  | addReg x _ | sub x _ | shr x _ | subn x _ | shl x _ =>
    cases he
    exact regsKept_setReg vF _ (by simp [destinations])
      (regsKept_setReg x _ (by simp [destinations]) (regsKept_refl _ s))
  | ldVxK x =>
    obtain ⟨k, -, rfl⟩ | ⟨-, rfl⟩ := execLdVxK_next he
    · exact regsKept_setReg x _ (by simp [destinations]) (regsKept_refl _ s)
    · exact regsKept_refl _ t
  | drw x y n =>
    obtain rfl | ⟨a, rfl⟩ := withBytesAtI_next he
    · exact regsKept_setReg vF _ (by simp [destinations]) (regsKept_refl _ s)
    · exact regsKept_refl _ s
  | ldVxMem x =>
    obtain rfl | ⟨a, rfl⟩ := withBytesAtI_next he
    · refine regsKept_setRegsFrom 0 _ (fun j hj => ?_) (regsKept_refl _ s)
      rw [Nat.zero_add]
      exact List.mem_map_of_mem (List.mem_range.mpr (by simpa [bytesAtI] using hj))
    · exact regsKept_refl _ s
  | _ => exact regsKept_of_onlyChanges (exec_onlyChanges he) (by simp [writesParts])

/-- Settles O47, from the frame of each instruction and the registers it keeps. -/
theorem eachInstructionChangesOnlyItsOwnParts : Obligations.EachInstructionChangesOnlyItsOwnParts :=
  fun _ _ _ he => ⟨exec_regsKept he, exec_onlyChanges he⟩

/-! ## What an instruction does not read

`mapKeySound` rewrites the keypad and ST. Every operation an instruction is made of commutes with it, so an instruction
that does not read the keypad and does not write ST commutes with it too. -/

/-- The state with its keypad and its sound timer rewritten. -/
def mapKeySound (κ : Vector Bool 16 → Vector Bool 16) (σ : Byte → Byte) (s : State) : State :=
  { s with key := κ s.key, st := σ s.st }

theorem setKeys_eq_mapKeySound (k : Vector Bool 16) (s : State) : setKeys k s = mapKeySound (fun _ => k) id s := rfl

/-- An outcome with its next state rewritten. -/
def mapNext (f : State → State) : Host.Outcome State Fault Refusal → Host.Outcome State Fault Refusal
  | .next t => .next (f t)
  | .fault r => .fault r
  | .refused r => .refused r

section KeySound

variable (κ : Vector Bool 16 → Vector Bool 16) (σ : Byte → Byte)

theorem skipIf_mapKeySound (taken : Bool) (s : State) :
    skipIf taken (mapKeySound κ σ s) = mapKeySound κ σ (skipIf taken s) := by
  cases taken <;> rfl

theorem setRegsFrom_mapKeySound (s : State) (k : Nat) (bs : List Byte) :
    setRegsFrom (mapKeySound κ σ s) k bs = mapKeySound κ σ (setRegsFrom s k bs) := by
  induction bs generalizing s k with
  | nil => rfl
  | cons b bs ih => exact ih (setReg s (BitVec.ofNat 4 k) b) (k + 1)

/-- A transfer at I, when its state `done'` after the rewriting is its state `done` rewritten. -/
theorem withBytesAtI_mapKeySound {i : Instr} {n : Nat} {s done done' : State} (hd : done' = mapKeySound κ σ done) :
    withBytesAtI i n (mapKeySound κ σ s) done' = mapNext (mapKeySound κ σ) (withBytesAtI i n s done) := by
  have hi : (mapKeySound κ σ s).i = s.i := rfl
  unfold withBytesAtI
  rw [hi, hd]
  cases firstOutside s.i.toNat n <;> rfl

theorem execRet_mapKeySound (s : State) : execRet (mapKeySound κ σ s) = mapNext (mapKeySound κ σ) (execRet s) := by
  by_cases hs : 0 < s.sp.val
  · rw [execRet_of_pos hs, execRet_of_pos (s := mapKeySound κ σ s) hs]
    rfl
  · rw [execRet_of_empty hs, execRet_of_empty (s := mapKeySound κ σ s) hs]
    rfl

theorem execCall_mapKeySound (nnn : Addr12) (s : State) :
    execCall nnn (mapKeySound κ σ s) = mapNext (mapKeySound κ σ) (execCall nnn s) := by
  by_cases hs : s.sp.val < 16
  · rw [execCall_of_lt hs, execCall_of_lt (s := mapKeySound κ σ s) hs]
    rfl
  · rw [execCall_of_full hs, execCall_of_full (s := mapKeySound κ σ s) hs]
    rfl

/-- A key skip does not read ST. -/
theorem keySkip_mapKeySound (i : Instr) (x : Nibble) (want : Bool) (s : State) :
    keySkip i x want (mapKeySound id σ s) = mapNext (mapKeySound id σ) (keySkip i x want s) := by
  have hk : keyAt (mapKeySound id σ s) (reg (mapKeySound id σ s) x) = keyAt s (reg s x) := rfl
  unfold keySkip
  rw [hk]
  cases keyAt s (reg s x) with
  | none => rfl
  | some down => exact congrArg _ (skipIf_mapKeySound id σ _ s)

/-- The key wait does not read ST. -/
theorem execLdVxK_mapKeySound (x : Nibble) (s : State) :
    execLdVxK x (mapKeySound id σ s) = mapNext (mapKeySound id σ) (execLdVxK x s) := by
  have hk : leastKey (mapKeySound id σ s) = leastKey s := rfl
  unfold execLdVxK
  rw [hk]
  cases leastKey s <;> rfl

/-- Rewriting the keypad and ST before an instruction is rewriting them after it: the keypad unless it reads the keypad
(R31), ST unless it writes ST (R29). -/
theorem exec_mapKeySound (i : Instr) (s : State) (hkey : readsKeypad i = true → κ = id)
    (hst : ∀ x, i = .ldStVx x → σ = id) :
    exec i (mapKeySound κ σ s) = mapNext (mapKeySound κ σ) (exec i s) := by
  cases i with
  | ret => exact execRet_mapKeySound κ σ s
  | call nnn => exact execCall_mapKeySound κ σ nnn s
  | seImm x kk | sneImm x kk | seReg x y | sneReg x y => exact congrArg _ (skipIf_mapKeySound κ σ _ s)
  | skp x | sknp x =>
    obtain rfl := hkey rfl
    exact keySkip_mapKeySound σ _ x _ s
  | ldVxK x =>
    obtain rfl := hkey rfl
    exact execLdVxK_mapKeySound σ x s
  | ldStVx x =>
    obtain rfl := hst x rfl
    rfl
  | drw x y n | ldBVx x | ldMemVx x => exact withBytesAtI_mapKeySound κ σ rfl
  | ldVxMem x => exact withBytesAtI_mapKeySound κ σ (congrArg nextInstr (setRegsFrom_mapKeySound κ σ s 0 _))
  | _ => rfl

end KeySound

/-- Settles O48: setting the keypad rewrites it and leaves ST. -/
theorem otherInstructionsDoNotReadTheKeypad : Obligations.OtherInstructionsDoNotReadTheKeypad := by
  intro i s t k hk he
  rw [setKeys_eq_mapKeySound, exec_mapKeySound _ _ i s (by simp [hk]) (fun _ _ => rfl), he]
  rfl

/-- Settles O49: LD ST, Vx overwrites ST without reading it, and every other instruction leaves ST as it finds it. -/
theorem noInstructionReadsTheSoundTimer : Obligations.NoInstructionReadsTheSoundTimer := by
  intro i s t b he
  by_cases hi : ∃ x, i = .ldStVx x
  · obtain ⟨x, rfl⟩ := hi
    cases he
    exact ⟨_, rfl, rfl⟩
  · refine ⟨mapKeySound id (fun _ => b) t, ?_, rfl⟩
    have hst (x : Nibble) (e : i = .ldStVx x) : (fun _ : Byte => b) = id := absurd ⟨x, e⟩ hi
    have h := exec_mapKeySound id (fun _ => b) i s (fun _ => rfl) hst
    rw [he] at h
    exact h

/-! ## The canonical memory (R33, R50; log 4)

A canonical memory lists exactly the addresses that read differently from the reset content, so its bytes determine it. -/

section Canonical

variable {m : Memory} {lo a c : Nat} {v : Byte}

theorem wfFrom_cons : Memory.wfFrom lo ((a, v) :: m) = true ↔
    lo ≤ a ∧ a < Config.memSize ∧ v ≠ initByte a ∧ Memory.wfFrom (a + 1) m = true := by
  simp [Memory.wfFrom, and_assoc]

theorem read_cons (m : Memory) (a c : Nat) (v : Byte) :
    Memory.read ((a, v) :: m) c = if a = c then v else Memory.read m c := rfl

/-- Below the address its canonical form starts from, a memory reads as the reset content. -/
theorem read_eq_initByte_of_wfFrom (h : Memory.wfFrom lo m = true) (hc : c < lo) : Memory.read m c = initByte c := by
  induction m generalizing lo with
  | nil => rfl
  | cons cell m ih =>
    obtain ⟨hlo, -, -, hm⟩ := wfFrom_cons.mp h
    rw [read_cons, if_neg (by omega), ih hm (by omega)]

theorem read_head_ne_initByte (h : Memory.wfFrom lo ((a, v) :: m) = true) :
    Memory.read ((a, v) :: m) a ≠ initByte a := by
  obtain ⟨-, -, hv, -⟩ := wfFrom_cons.mp h
  rwa [read_cons, if_pos rfl]

/-- The first listed address is the least one that reads differently from the reset content. -/
theorem head_le_of_read_ne_initByte (h : Memory.wfFrom lo ((a, v) :: m) = true)
    (hc : Memory.read ((a, v) :: m) c ≠ initByte c) : a ≤ c := by
  have ha : Memory.wfFrom a ((a, v) :: m) = true := wfFrom_cons.mpr ⟨Nat.le_refl a, (wfFrom_cons.mp h).2⟩
  by_contra hlt
  exact hc (read_eq_initByte_of_wfFrom ha (by omega))

end Canonical

theorem eq_of_wfFrom_of_read_eq {m₁ m₂ : Memory} {lo : Nat} (h₁ : Memory.wfFrom lo m₁ = true)
    (h₂ : Memory.wfFrom lo m₂ = true) (hr : ∀ c, Memory.read m₁ c = Memory.read m₂ c) : m₁ = m₂ := by
  induction m₁ generalizing lo m₂ with
  | nil =>
    cases m₂ with
    | nil => rfl
    | cons cell m₂ => exact absurd (hr _).symm (read_head_ne_initByte h₂)
  | cons cell m₁ ih =>
    cases m₂ with
    | nil => exact absurd (hr _) (read_head_ne_initByte h₁)
    | cons cell' m₂ =>
      obtain ⟨a, v⟩ := cell
      obtain ⟨b, w⟩ := cell'
      have hab : a ≤ b := head_le_of_read_ne_initByte h₁ (hr b ▸ read_head_ne_initByte h₂)
      have hba : b ≤ a := head_le_of_read_ne_initByte h₂ (hr a ▸ read_head_ne_initByte h₁)
      obtain rfl := Nat.le_antisymm hab hba
      obtain rfl : v = w := by simpa [read_cons] using hr a
      obtain ⟨-, -, -, ht₁⟩ := wfFrom_cons.mp h₁
      obtain ⟨-, -, -, ht₂⟩ := wfFrom_cons.mp h₂
      refine congrArg _ (ih ht₁ ht₂ fun c => ?_)
      by_cases hc : c < a + 1
      · rw [read_eq_initByte_of_wfFrom ht₁ hc, read_eq_initByte_of_wfFrom ht₂ hc]
      · have hne : a ≠ c := by omega
        simpa [read_cons, hne] using hr c

/-- Settles O50, by induction on the two lists from their first address up. -/
theorem canonicalMemoriesWithEqualBytesAreEqual : Obligations.CanonicalMemoriesWithEqualBytesAreEqual :=
  fun _ _ => eq_of_wfFrom_of_read_eq

/-! ## Reset (R35) -/

/-- A running state with no fault and a canonical memory meets the invariant. -/
theorem stateInv_of_running {s : State} (hm : Memory.wf s.mem = true) (hh : s.halted = false) (hf : s.fault = none) :
    StateInv s := by
  simp [StateInv, invHolds, faultLegal, hm, hh, hf]

/-- Settles O51: every write of FONT keeps the canonical form, and Reset leaves no fault. -/
theorem invariantHoldsAtReset : Obligations.InvariantHoldsAtReset :=
  ⟨stateInv_of_running reset_mem_wf rfl rfl, fun fontBytes => stateInv_of_running (resetWith_mem_wf fontBytes) rfl rfl⟩

/-- The reset content of an address inside FONT (R51). -/
theorem initByte_of_font {a : Nat} (h : 0x050 ≤ a ∧ a < 0x050 + 80) : initByte a = font[a - 0x050] := dif_pos h

/-- With the default FONT listed, every address reads as its reset content (R51; log 3). -/
theorem read_resetWith_font (a : Nat) : Memory.read (State.resetWith font).mem a = initByte a := by
  rw [resetWith_mem, read_writeBytes]
  split
  · next h =>
    have hoff : 0x050 ≤ a ∧ a - 0x050 < 80 := by simpa [Config.fontBase] using h
    have ha : 0x050 ≤ a ∧ a < 0x050 + 80 := by omega
    simp [initByte_of_font ha, Config.fontBase]
  · rfl

/-- Both memories are canonical and read alike, so they are equal: the writes of the default FONT list nothing. -/
theorem resetWith_font : State.resetWith font = State.reset := by
  have hm : (State.resetWith font).mem = State.reset.mem :=
    canonicalMemoriesWithEqualBytesAreEqual _ _ (resetWith_mem_wf font) reset_mem_wf read_resetWith_font
  rw [resetWith_mem] at hm
  rw [State.resetWith, hm]

/-- Settles O55. -/
theorem resetWithTheDefaultFontIsReset : Obligations.ResetWithTheDefaultFontIsReset :=
  ⟨resetWith_font, congrArg (fun r => { Sys2Proof.core with reset := r }) resetWith_font⟩

end Sys2Proof.Machine

/-!
The statements about memory under a running machine (20_memory.md): every step keeps the machine invariant, and bytes
that Fx55 stores over the next opcode are what the next cycle fetches. First what they need of the decoder: it reads
every instruction back from its own word, so the opcode of an instruction's fault record is a word of that instruction.
-/

namespace Sys2Proof

/-! ## The decoder reads an instruction back from its own word (R74, R79) -/

theorem Instr.ctorIdx_lt (i : Instr) : i.ctorIdx < opcodeTable.length := by
  have hlen : opcodeTable.length = 34 := rfl
  cases i <;> simp [hlen, Instr.ctorIdx]

/-- The row of an instruction: the constructors stand in the order of the table (R76). -/
def Instr.row (i : Instr) : Row := opcodeTable[i.ctorIdx]'i.ctorIdx_lt

theorem Instr.row_mem (i : Instr) : i.row ∈ opcodeTable := List.getElem_mem i.ctorIdx_lt

/-- The patterns of two rows differ on a bit that both masks cover (R79). -/
theorem opcodeTable_pairwise :
    opcodeTable.Pairwise fun r₁ r₂ => r₁.pattern &&& r₂.mask ≠ r₂.pattern &&& r₁.mask := by decide

/-- At most one row matches a word (R79): two that match agree on every bit that both masks cover. -/
theorem row_eq_of_match {op : Word} {r₁ r₂ : Row} (h₁ : r₁ ∈ opcodeTable) (h₂ : r₂ ∈ opcodeTable)
    (m₁ : op &&& r₁.mask = r₁.pattern) (m₂ : op &&& r₂.mask = r₂.pattern) : r₁ = r₂ := by
  have hcommon : r₁.pattern &&& r₂.mask = r₂.pattern &&& r₁.mask := by
    rw [← m₁, ← m₂, BitVec.and_assoc, BitVec.and_assoc, BitVec.and_comm r₁.mask]
  have : Std.Symm fun r₁ r₂ : Row => r₁.pattern &&& r₂.mask ≠ r₂.pattern &&& r₁.mask := ⟨fun _ _ h => h.symm⟩
  by_contra hne
  exact opcodeTable_pairwise.forall h₁ h₂ hne hcommon

/-- The decoder answers the row that matches (R74). -/
theorem decodeWord_of_match {op : Word} {r : Row} (hr : r ∈ opcodeTable) (hm : op &&& r.mask = r.pattern) :
    decodeWord op = some (r.operands op) := by
  have hsome : (opcodeTable.find? (rowMatches op)).isSome := List.find?_isSome.mpr ⟨r, hr, beq_iff_eq.mpr hm⟩
  obtain ⟨r', hf⟩ := Option.isSome_iff_exists.mp hsome
  have hm' : op &&& r'.mask = r'.pattern := by simpa [rowMatches] using List.find?_some hf
  rw [decodeWord, hf, row_eq_of_match (List.mem_of_find?_eq_some hf) hr hm' hm, Option.map_some]

@[simp] theorem fieldX_ofNat (n : Nat) : fieldX (BitVec.ofNat 16 n) = BitVec.ofNat 4 ((n % 2 ^ 16) >>> 8) := rfl
@[simp] theorem fieldY_ofNat (n : Nat) : fieldY (BitVec.ofNat 16 n) = BitVec.ofNat 4 ((n % 2 ^ 16) >>> 4) := rfl
@[simp] theorem fieldN_ofNat (n : Nat) : fieldN (BitVec.ofNat 16 n) = BitVec.ofNat 4 (n % 2 ^ 16) := rfl
@[simp] theorem fieldKk_ofNat (n : Nat) : fieldKk (BitVec.ofNat 16 n) = BitVec.ofNat 8 (n % 2 ^ 16) := rfl
@[simp] theorem fieldNnn_ofNat (n : Nat) : fieldNnn (BitVec.ofNat 16 n) = BitVec.ofNat 12 (n % 2 ^ 16) := rfl

/-- The word of an instruction carries the fixed bits of its row (R76). -/
theorem encode_mask_row (i : Instr) : encode i &&& i.row.mask = i.row.pattern := by
  cases i <;> simp [Instr.row, Instr.ctorIdx, opcodeTable, opcodeRowsA, opcodeRowsB, opcodeRowsC, opcodeRowsD, encode,
    mask_or]

/-- The fields of the word of an instruction are its operands (R71). -/
theorem row_operands_encode (i : Instr) : i.row.operands (encode i) = i := by
  cases i <;> simp [Instr.row, Instr.ctorIdx, opcodeTable, opcodeRowsA, opcodeRowsB, opcodeRowsC, opcodeRowsD, encode]

/-- The decoder reads every instruction back from its word (R74). -/
@[simp] theorem decodeWord_encode (i : Instr) : decodeWord (encode i) = some i := by
  rw [decodeWord_of_match i.row_mem (encode_mask_row i), row_operands_encode]

end Sys2Proof

namespace Sys2Proof.Machine

/-! ## What a step and an instruction can do -/

/-- A step that has a next state ran on a CPU that was not halted: it ended in a fault of fetch or decode, or in an
instruction and the end of its cycle (R90, R98). -/
theorem step_next {s t : State} (h : step s = .next t) :
    s.halted = false ∧
      (fetchDecode s = .faulted t ∨ ∃ i u, fetchDecode s = .instr i ∧ exec i s = .next u ∧ t = endCycle i u) := by
  unfold step at h
  split at h
  · cases h
  · next hh =>
    refine ⟨by simpa using hh, ?_⟩
    split at h
    · next u hf =>
      cases h
      exact .inl hf
    · next i hf =>
      split at h <;> cases h
      next u he => exact .inr ⟨i, u, hf, he, rfl⟩

/-- The instruction that `runsNext` names is the one that fetch and decode give. -/
theorem fetchDecode_of_runsNext {s : State} {i : Instr} (h : runsNext s i) : fetchDecode s = .instr i := by
  obtain ⟨-, hpc, hd⟩ := h
  rcases fetchDecode_cases s with ⟨hout, -⟩ | ⟨-, hnone, -⟩ | ⟨j, -, hj, hf⟩
  · omega
  · exact absurd (hd.symm.trans hnone) (by simp)
  · rwa [Option.some.inj (hd.symm.trans hj)]

/-- The instruction completed, as far as the invariant sees: the fault state is as before, and a canonical memory is
canonical still. -/
structure Completed (s t : State) : Prop where
  halted : t.halted = s.halted
  fault : t.fault = s.fault
  mem : Memory.wf s.mem = true → Memory.wf t.mem = true

/-- The instruction `i` raised a fault it may raise (R211), with an address that the cause allows (R212). -/
def Raised (i : Instr) (s t : State) : Prop :=
  ∃ c a, raises c i = true ∧ addrLegal c a = true ∧ t = enterFault s c (some (encode i)) a

theorem completed_of_mem_eq {s t : State} (hh : t.halted = s.halted) (hf : t.fault = s.fault) (hm : t.mem = s.mem) :
    Completed s t :=
  ⟨hh, hf, fun h => hm ▸ h⟩

theorem completed_skipIf (taken : Bool) (s : State) : Completed s (skipIf taken s) :=
  completed_of_mem_eq (skipIf_halted _ s) (skipIf_fault _ s) (skipIf_mem _ s)

/-- A store inside the 4096 bytes completes. -/
theorem completed_storeBytes {s : State} {bs : List Byte} (h : s.i.toNat + bs.length ≤ 0x1000) :
    Completed s (nextInstr (storeBytes s s.i.toNat bs)) :=
  ⟨rfl, rfl, fun hm => writeBytes_wf bs _ hm (.inr h)⟩

/-- A transfer at I raises MEM_RANGE, unless its state `done` completes when its bytes are inside memory (R53). -/
theorem withBytesAtI_completed_or_raised {i : Instr} {n : Nat} {s done t : State} (hr : raises .memRange i = true)
    (h : withBytesAtI i n s done = .next t) (hd : n = 0 ∨ s.i.toNat + n ≤ 0x1000 → Completed s done) :
    Completed s t ∨ Raised i s t := by
  rcases withBytesAtI_cases i n s done with ⟨he, hin⟩ | ⟨he, -, -⟩ <;> rw [he] at h <;> cases h
  · exact .inl (hd hin)
  · have hout : 0xFFF < max s.i.toNat 0x1000 := by omega
    exact .inr ⟨.memRange, some _, hr, decide_eq_true hout, rfl⟩

/-- A key skip completes, or raises KEY_RANGE (R190). -/
theorem keySkip_completed_or_raised {i : Instr} {x : Nibble} {want : Bool} {s t : State}
    (hr : raises .keyRange i = true) (h : keySkip i x want s = .next t) : Completed s t ∨ Raised i s t := by
  unfold keySkip at h
  split at h <;> cases h
  · exact .inl (completed_skipIf _ s)
  · next hk =>
    have hout : 0xF < (reg s x).toNat := by
      by_contra hin
      simp [keyAt_inside (s := s) (k := reg s x) (by omega)] at hk
    exact .inr ⟨.keyRange, _, hr, by simp [addrLegal, hout, (reg s x).isLt], rfl⟩

/-- Every instruction completes or raises one of its own faults (R211). -/
theorem exec_completed_or_raised {i : Instr} {s t : State} (he : exec i s = .next t) :
    Completed s t ∨ Raised i s t := by
  cases i with
  | ret =>
    obtain ⟨hs, rfl⟩ | rfl := execRet_next he
    · exact .inl (completed_of_mem_eq rfl rfl rfl)
    · exact .inr ⟨.stackUnderflow, none, rfl, rfl, rfl⟩
  | call nnn =>
    obtain ⟨hs, rfl⟩ | rfl := execCall_next he
    · exact .inl (completed_of_mem_eq rfl rfl rfl)
    · exact .inr ⟨.stackOverflow, none, rfl, rfl, rfl⟩
  | seImm x kk | sneImm x kk | seReg x y | sneReg x y =>
    cases he
    exact .inl (completed_skipIf _ s)
  | skp x | sknp x => exact keySkip_completed_or_raised rfl he
  | ldVxK x =>
    obtain ⟨k, -, rfl⟩ | ⟨-, rfl⟩ := execLdVxK_next he <;> exact .inl (completed_of_mem_eq rfl rfl rfl)
  | drw x y n => exact withBytesAtI_completed_or_raised rfl he fun _ => completed_of_mem_eq rfl rfl rfl
  | ldBVx x =>
    exact withBytesAtI_completed_or_raised rfl he fun hin => completed_storeBytes (hin.resolve_left (by decide))
  | ldMemVx x =>
    refine withBytesAtI_completed_or_raised rfl he fun hin => completed_storeBytes ?_
    rw [regsUpTo_length]
    exact hin.resolve_left (Nat.succ_ne_zero _)
  | ldVxMem x =>
    exact withBytesAtI_completed_or_raised rfl he fun _ => completed_of_mem_eq (by simp) (by simp) (by simp)
  | _ =>
    cases he
    exact .inl (completed_of_mem_eq rfl rfl rfl)

/-! ## The invariant (R50, R211 to R214) -/

theorem stateInv_iff {s : State} : StateInv s ↔ Memory.wf s.mem = true ∧ faultLegal s = true := by
  simp [StateInv, invHolds]

/-- A running state that meets the invariant holds no fault. -/
theorem fault_eq_none_of_running {s : State} (h : StateInv s) (hh : s.halted = false) : s.fault = none := by
  obtain ⟨-, hf⟩ := stateInv_iff.mp h
  cases he : s.fault with
  | none => rfl
  | some r => simp [faultLegal, he, hh] at hf

/-- Entering a fault with a record that R211 and R212 allow keeps the invariant. -/
theorem stateInv_enterFault {s : State} {c : Cause} {op : Option Word} {a : Option Nat} (hm : Memory.wf s.mem = true)
    (ha : addrLegal c a = true) (ho : opcodeLegal c op = true) (hp : pcLegal c s.pc = true) :
    StateInv (enterFault s c op a) := by
  simp [stateInv_iff, faultLegal, legalRecord, hm, ha, ho, hp]

/-- The causes an instruction raises stand only at a PC that was fetched (R91). -/
theorem pcLegal_of_raises {c : Cause} {i : Instr} {pc : Word} (hr : raises c i = true) (hpc : pc.toNat + 1 ≤ 0xFFF) :
    pcLegal c pc = true := by
  have hlt : ¬0xFFF ≤ pc.toNat := by omega
  have hc : c ≠ .fetchRange := by
    rintro rfl
    cases hr
  simp [pcLegal, hlt, hc]

/-- A fault of fetch or decode keeps the invariant (R91, R92). -/
theorem stateInv_of_fetchDecode_faulted {s t : State} (hm : Memory.wf s.mem = true) (hf : fetchDecode s = .faulted t) :
    StateInv t := by
  rcases fetchDecode_cases s with ⟨hpc, he⟩ | ⟨hpc, hd, he⟩ | ⟨i, -, -, he⟩ <;> rw [he] at hf <;> cases hf
  · have hle : 0xFFF ≤ s.pc.toNat := by omega
    exact stateInv_enterFault hm rfl rfl (by simp [pcLegal, hle])
  · have hlt : ¬0xFFF ≤ s.pc.toNat := by omega
    exact stateInv_enterFault hm rfl (by simp [opcodeLegal, hd]) (by simp [pcLegal, hlt])

/-- An instruction fetched by a running CPU keeps the invariant. -/
theorem stateInv_exec {i : Instr} {s t : State} (h : StateInv s) (hh : s.halted = false) (hpc : s.pc.toNat + 1 ≤ 0xFFF)
    (he : exec i s = .next t) : StateInv t := by
  obtain ⟨hm, -⟩ := stateInv_iff.mp h
  obtain ⟨hhalted, hfault, hmem⟩ | ⟨c, a, hr, ha, rfl⟩ := exec_completed_or_raised he
  · exact stateInv_of_running (hmem hm) (hhalted.trans hh) (hfault.trans (fault_eq_none_of_running h hh))
  · exact stateInv_enterFault hm ha (by simpa [opcodeLegal] using hr) (pcLegal_of_raises hr hpc)

/-- The end of the cycle writes timers and outputs alone, of which the invariant says nothing (R94 to R96). -/
theorem stateInv_endCycle {i : Instr} {s : State} (h : StateInv s) : StateInv (endCycle i s) := by
  unfold endCycle
  split
  · exact h
  · exact h

/-- A PC whose fetch gives an instruction is inside memory (R91). -/
theorem pc_inside_of_fetchDecode {s : State} {i : Instr} (hf : fetchDecode s = .instr i) : s.pc.toNat + 1 ≤ 0xFFF := by
  rcases fetchDecode_cases s with ⟨-, he⟩ | ⟨hpc, -⟩ | ⟨-, hpc, -⟩
  · rw [he] at hf
    cases hf
  · exact hpc
  · exact hpc

/-- Settles O52: a fault of fetch or decode, the instruction and the end of its cycle each keep the invariant. -/
theorem everyStepKeepsTheInvariant : Obligations.EveryStepKeepsTheInvariant := by
  intro s t h hstep
  obtain ⟨hh, hf | ⟨i, u, hf, he, rfl⟩⟩ := step_next hstep
  · exact stateInv_of_fetchDecode_faulted (stateInv_iff.mp h).1 hf
  · exact stateInv_endCycle (stateInv_exec h hh (pc_inside_of_fetchDecode hf) he)

/-! ## Stored bytes as the next opcode (R55, R62) -/

/-- A register that Fx55 stores is the byte at its place from I on (R174). -/
theorem readByte_storeBytes_regsUpTo (s : State) {x k : Nibble} (hk : k.toNat ≤ x.toNat) :
    readByte (storeBytes s s.i.toNat (regsUpTo s x)) (s.i.toNat + k.toNat) = reg s k := by
  have hlt : k.toNat < (regsUpTo s x).length := by
    rw [regsUpTo_length]
    omega
  simp [readByte, read_writeBytes, Nat.lt_succ_of_le hk]

/-- The cycle of an Fx55 inside memory completes (R174). -/
theorem step_ldMemVx {s : State} {x : Nibble} (h : runsNext s (.ldMemVx x)) (hin : s.i.toNat + x.toNat ≤ 0xFFF) :
    step s = .next (bookkeeping (.ldMemVx x) (nextInstr (storeBytes s s.i.toNat (regsUpTo s x)))) := by
  have hexec : exec (.ldMemVx x) s = .next (nextInstr (storeBytes s s.i.toNat (regsUpTo s x))) :=
    withBytesAtI_inside (.inr (by omega))
  have hh : s.halted = false := h.1
  rw [step_instr hh (fetchDecode_of_runsNext h) hexec, endCycle_completed (by simpa using hh)]

/-- Settles O40: PC + 2 does not wrap, because the fetch was inside memory, so the next opcode is read at I + k. -/
theorem storedBytesAreTheNextOpcode : Obligations.StoredBytesAreTheNextOpcode := by
  intro s x k hrun hin hk hat
  have ⟨_, hpc, _⟩ := hrun
  refine ⟨_, step_ldMemVx hrun hin, rfl, ?_⟩
  have hnext : (s.pc + 2).toNat = s.i.toNat + k.toNat := by
    rw [BitVec.toNat_add, hat]
    exact Nat.mod_eq_of_lt (by simp; omega)
  have hsucc : (k + 1).toNat = k.toNat + 1 := by
    have hx : x.toNat < 16 := x.isLt
    rw [BitVec.toNat_add]
    exact Nat.mod_eq_of_lt (by simp; omega)
  have hlow : readByte (storeBytes s s.i.toNat (regsUpTo s x)) (s.i.toNat + k.toNat + 1) = reg s (k + 1) := by
    rw [Nat.add_assoc, ← hsucc]
    exact readByte_storeBytes_regsUpTo s (by omega)
  have hhigh := readByte_storeBytes_regsUpTo s (x := x) (k := k) (by omega)
  rw [bookkeeping_pc, nextInstr_pc, storeBytes_pc, hnext]
  exact congrArg₂ wordOfBytes hhigh hlow

end Sys2Proof.Machine

/-!
The statements about the encoding (30_encoding.md): decode and encode are inverse to each other, at most one row of the
opcode table matches a word, each row is selected by its mask and match, and which words have no entry.
-/

namespace Sys2Proof

/-! ## What the decoder answers (R74) -/

/-- A word has no entry when no row matches it (R74). -/
theorem decodeWord_eq_none_iff {op : Word} :
    decodeWord op = none ↔ ∀ r ∈ opcodeTable, op &&& r.mask ≠ r.pattern := by
  simp [decodeWord, rowMatches]

/-- What the decoder answers is the operands of a row that matches (R74). -/
theorem match_of_decodeWord {op : Word} {i : Instr} (h : decodeWord op = some i) :
    ∃ r ∈ opcodeTable, op &&& r.mask = r.pattern ∧ r.operands op = i := by
  obtain ⟨r, hf, hi⟩ := Option.map_eq_some_iff.mp h
  exact ⟨r, List.mem_of_find?_eq_some hf, by simpa [rowMatches] using List.find?_some hf, hi⟩

/-- The bytes of an instruction are read back, and the bytes after them are left (R55, R70). -/
theorem decode_encodeBytes_append (i : Instr) (rest : List Byte) :
    decode (encodeBytes i ++ rest) = .ok (i, rest) := by
  simp [encodeBytes, decode]

/-- Settles O1: the word of an instruction matches the instruction's own row, and its fields are the operands. -/
theorem decodeReadsBackEveryEncoding : Obligations.DecodeReadsBackEveryEncoding :=
  fun i rest => ⟨decodeWord_encode i, decode_encodeBytes_append i rest⟩

/-- Settles O3: the patterns of two rows that both match agree wherever both masks look, so the rows are one. -/
theorem atMostOneRowMatchesAnOpcode : Obligations.AtMostOneRowMatchesAnOpcode :=
  ⟨fun _ _ _ h₁ h₂ => row_eq_of_match h₁ h₂, fun _ _ => decodeWord_of_match, fun _ => decodeWord_eq_none_iff.mpr⟩

/-- The mask 0xFFFF of the first two rows leaves the whole word. -/
@[simp] theorem and_maskAll (op : Word) : op &&& 0xFFFF#16 = op := BitVec.and_allOnes

/-- Settles O4: the statement lists what `decodeWord_of_match` says of each row in turn. -/
theorem opcodeTableSelectsEachInstruction : Obligations.OpcodeTableSelectsEachInstruction := by
  intro op
  have hall : opcodeTable.Forall fun r => op &&& r.mask = r.pattern → decodeWord op = some (r.operands op) :=
    List.forall_iff_forall_mem.mpr fun _ => decodeWord_of_match
  obtain ⟨hcls, hret, hrest⟩ := hall
  exact ⟨fun h => hcls ((and_maskAll op).trans h), fun h => hret ((and_maskAll op).trans h), hrest⟩

/-- Settles O6, by running the decoder on the seven words. -/
theorem sampleWordsDecodeAsTheTableSays : Obligations.SampleWordsDecodeAsTheTableSays := by
  unfold Obligations.SampleWordsDecodeAsTheTableSays
  decide

/-! ## A word rebuilt from its fields (R71) -/

/-- A field put back in its place is the bits of the word that the field covers. -/
theorem extract_shiftLeft (op : Word) (start len : Nat) :
    (op.extractLsb' start len).setWidth 16 <<< start = op &&& ((BitVec.allOnes len).setWidth 16 <<< start) := by
  apply BitVec.eq_of_getLsbD_eq
  intro k hk
  by_cases hs : k < start
  · simp [hs]
  · simp [hs, hk, show start + (k - start) = k by omega, Bool.and_comm]

@[simp] theorem atX_fieldX (op : Word) : atX (fieldX op) = op &&& 0x0F00#16 := extract_shiftLeft op 8 4
@[simp] theorem atY_fieldY (op : Word) : atY (fieldY op) = op &&& 0x00F0#16 := extract_shiftLeft op 4 4

@[simp] theorem setWidth_fieldN (op : Word) : (fieldN op).setWidth 16 = op &&& 0x000F#16 := by
  simpa [fieldN] using extract_shiftLeft op 0 4

@[simp] theorem setWidth_fieldKk (op : Word) : (fieldKk op).setWidth 16 = op &&& 0x00FF#16 := by
  simpa [fieldKk] using extract_shiftLeft op 0 8

@[simp] theorem setWidth_fieldNnn (op : Word) : (fieldNnn op).setWidth 16 = op &&& 0x0FFF#16 := by
  simpa [fieldNnn] using extract_shiftLeft op 0 12

/-- The fields a row binds cover every bit that its mask leaves out (R71, R76). -/
theorem encode_operands {r : Row} (hr : r ∈ opcodeTable) (op : Word) :
    encode (r.operands op) = r.pattern ||| (op &&& ~~~r.mask) := by
  fin_cases hr <;> simp [encode, BitVec.or_assoc, ← BitVec.and_or_distrib_left]

/-- Settles O2: the row's pattern gives back the bits under the mask, and the fields give back the others. -/
theorem encodeRebuildsEveryDecodedWord : Obligations.EncodeRebuildsEveryDecodedWord := by
  intro op i h
  obtain ⟨r, hr, hm, rfl⟩ := match_of_decodeWord h
  calc encode (r.operands op)
      = (op &&& r.mask) ||| (op &&& ~~~r.mask) := by rw [encode_operands hr, hm]
    _ = op &&& (r.mask ||| ~~~r.mask) := BitVec.and_or_distrib_left.symm
    _ = op := by simp

/-! ## The words without an entry (R73, R77) -/

/-- `op[15:12]`, the most significant nibble, by which the rows form families (R73). -/
def fieldMsn (op : Word) : Nibble := op.extractLsb' 12 4

theorem and_maskMsn (op : Word) : op &&& 0xF000#16 = (fieldMsn op).setWidth 16 <<< 12 :=
  (extract_shiftLeft op 12 4).symm

theorem and_maskLsn (op : Word) :
    op &&& 0xF00F#16 = (fieldMsn op).setWidth 16 <<< 12 ||| (fieldN op).setWidth 16 := by
  rw [← and_maskMsn, setWidth_fieldN, ← BitVec.and_or_distrib_left]
  rfl

theorem and_maskLsb (op : Word) :
    op &&& 0xF0FF#16 = (fieldMsn op).setWidth 16 <<< 12 ||| (fieldKk op).setWidth 16 := by
  rw [← and_maskMsn, setWidth_fieldKk, ← BitVec.and_or_distrib_left]
  rfl

/-- A field that a mask covers reads the same under the mask. -/
theorem extract_and_of_allOnes {op m : Word} {start len : Nat}
    (hm : m.extractLsb' start len = BitVec.allOnes len) :
    op.extractLsb' start len = (op &&& m).extractLsb' start len := by
  rw [BitVec.extractLsb'_and, hm, BitVec.and_allOnes]

/-- The first pattern class of R73: the most significant nibble. -/
theorem maskMsn_eq_iff {op p : Word} (hp : p &&& 0xF000#16 = p) :
    op &&& 0xF000#16 = p ↔ fieldMsn op = fieldMsn p := by
  constructor
  · rintro rfl
    exact extract_and_of_allOnes rfl
  · intro hmsn
    rw [← hp, and_maskMsn, and_maskMsn, hmsn]

/-- The second pattern class of R73: the most and the least significant nibble. -/
theorem maskLsn_eq_iff {op p : Word} (hp : p &&& 0xF00F#16 = p) :
    op &&& 0xF00F#16 = p ↔ fieldMsn op = fieldMsn p ∧ fieldN op = fieldN p := by
  constructor
  · rintro rfl
    exact ⟨extract_and_of_allOnes rfl, extract_and_of_allOnes rfl⟩
  · rintro ⟨hmsn, hlsn⟩
    rw [← hp, and_maskLsn, and_maskLsn, hmsn, hlsn]

/-- The third pattern class of R73: the most significant nibble and the least significant byte. -/
theorem maskLsb_eq_iff {op p : Word} (hp : p &&& 0xF0FF#16 = p) :
    op &&& 0xF0FF#16 = p ↔ fieldMsn op = fieldMsn p ∧ fieldKk op = fieldKk p := by
  constructor
  · rintro rfl
    exact ⟨extract_and_of_allOnes rfl, extract_and_of_allOnes rfl⟩
  · rintro ⟨hmsn, hlsb⟩
    rw [← hp, and_maskLsb, and_maskLsb, hmsn, hlsb]

/-- A word without an entry, family by family: what the rows of each family leave over (R73, R76). -/
theorem decodeWord_eq_none_iff_fields {op : Word} : decodeWord op = none ↔
    (op ≠ 0x00E0 ∧ op ≠ 0x00EE) ∧
    fieldMsn op ∉ [0x1#4, 0x2#4, 0x3#4, 0x4#4, 0x6#4, 0x7#4, 0xA#4, 0xB#4, 0xC#4, 0xD#4] ∧
    (fieldMsn op = 0x5#4 → fieldN op ≠ 0) ∧
    (fieldMsn op = 0x8#4 → fieldN op ∉ [0x0#4, 0x1#4, 0x2#4, 0x3#4, 0x4#4, 0x5#4, 0x6#4, 0x7#4, 0xE#4]) ∧
    (fieldMsn op = 0x9#4 → fieldN op ≠ 0) ∧
    (fieldMsn op = 0xE#4 → fieldKk op ∉ [0x9E#8, 0xA1#8]) ∧
    (fieldMsn op = 0xF#4 →
      fieldKk op ∉ [0x07#8, 0x0A#8, 0x15#8, 0x18#8, 0x1E#8, 0x29#8, 0x33#8, 0x55#8, 0x65#8]) := by
  rw [decodeWord_eq_none_iff]
  simp [opcodeTable, opcodeRowsA, opcodeRowsB, opcodeRowsC, opcodeRowsD, maskMsn_eq_iff, maskLsn_eq_iff, maskLsb_eq_iff,
    fieldMsn, fieldN, fieldKk]
  grind

/-- Settles O5: in each family, R77 lists the words that the family's rows leave over; the two words of the 0-family are
in no other. -/
theorem opcodesWithoutEntryAreExactlyTheListed : Obligations.OpcodesWithoutEntryAreExactlyTheListed := by
  intro op
  have hzero : op.extractLsb' 12 4 ≠ 0x0#4 → op ≠ 0x00E0 ∧ op ≠ 0x00EE :=
    fun h => ⟨by rintro rfl; exact h rfl, by rintro rfl; exact h rfl⟩
  have hlsn : ∀ n : Nibble, n ∉ [0x0#4, 0x1#4, 0x2#4, 0x3#4, 0x4#4, 0x5#4, 0x6#4, 0x7#4, 0xE#4] ↔
      n ∈ [0x8#4, 0x9#4, 0xA#4, 0xB#4, 0xC#4, 0xD#4, 0xF#4] := by decide
  rw [decodeWord_eq_none_iff_fields, hlsn]
  unfold fieldMsn fieldN fieldKk
  generalize op.extractLsb' 12 4 = msn at *
  obtain ⟨⟨m, hm⟩⟩ := msn
  interval_cases m <;> simp_all

end Sys2Proof

/-!
The statements about the cycle (40_cycle.md): what fetch and decode answer, that every running cycle has a next state,
the end of a cycle, and the halted state.
-/

namespace Sys2Proof.Machine

/-! ## Fetch and decode (R91, R92) -/

/-- The opcode at PC is the word that R91 computes. -/
theorem opcodeAtPc_eq_of_toNat {s : State} {op : Word}
    (h : op.toNat = (readByte s s.pc.toNat).toNat * 256 + (readByte s (s.pc.toNat + 1)).toNat) : opcodeAtPc s = op :=
  BitVec.eq_of_toNat_eq ((wordOfBytes_toNat _ _).trans h.symm)

theorem fetchDecode_of_pc_outside {s : State} (hpc : 0xFFF ≤ s.pc.toNat) :
    fetchDecode s = .faulted (enterFault s .fetchRange none none) :=
  if_pos (Nat.lt_succ_of_le hpc)

theorem fetchDecode_of_noEntry {s : State} (hpc : s.pc.toNat < 0xFFF) (hd : decodeWord (opcodeAtPc s) = none) :
    fetchDecode s = .faulted (enterFault s .illegalOpcode (some (opcodeAtPc s)) none) := by
  rcases fetchDecode_cases s with ⟨hout, -⟩ | ⟨-, -, hf⟩ | ⟨i, -, hi, -⟩
  · omega
  · exact hf
  · exact absurd (hd.symm.trans hi) (by simp)

/-- Settles O8: the opcode that R91 computes is the one fetched, and above 0xFFE the fetch itself faults. -/
theorem fetchIsBigEndianAndRangeChecked : Obligations.FetchIsBigEndianAndRangeChecked := by
  intro s hh
  refine ⟨fun hpc op i hop hd => ?_, fun hpc => step_faulted hh (fetchDecode_of_pc_outside hpc)⟩
  obtain rfl := opcodeAtPc_eq_of_toNat hop
  exact fetchDecode_of_runsNext ⟨hh, hpc, hd⟩

/-- Settles O9: the fetched opcode has no entry, so decode faults. -/
theorem illegalOpcodeHaltsWithOpcodeAndPc : Obligations.IllegalOpcodeHaltsWithOpcodeAndPc := by
  intro s op hh hpc hop hd
  obtain rfl := opcodeAtPc_eq_of_toNat hop
  exact step_faulted hh (fetchDecode_of_noEntry hpc hd)

/-! ## Execute (R90, R93) -/

/-- Every instruction has a next state, from every state: a fault entry is one (R214). -/
theorem exec_has_next (i : Instr) (s : State) : ∃ t, exec i s = .next t := by
  have htransfer (n : Nat) (done : State) : ∃ t, withBytesAtI i n s done = .next t := by
    rcases withBytesAtI_cases i n s done with ⟨he, -⟩ | ⟨he, -⟩ <;> exact ⟨_, he⟩
  have hskip (x : Nibble) (want : Bool) : ∃ t, keySkip i x want s = .next t := by
    unfold keySkip
    split <;> exact ⟨_, rfl⟩
  have hwait (x : Nibble) : ∃ t, execLdVxK x s = .next t := by
    unfold execLdVxK
    split <;> exact ⟨_, rfl⟩
  cases i with
  | ret =>
    by_cases hs : 0 < s.sp.val
    · exact ⟨_, execRet_of_pos hs⟩
    · exact ⟨_, execRet_of_empty hs⟩
  | call nnn =>
    by_cases hs : s.sp.val < 16
    · exact ⟨_, execCall_of_lt hs⟩
    · exact ⟨_, execCall_of_full hs⟩
  | skp x | sknp x => exact hskip x _
  | drw x y n | ldBVx x | ldMemVx x | ldVxMem x => exact htransfer _ _
  | ldVxK x => exact hwait x
  | _ => exact ⟨_, rfl⟩

/-- Settles O13: fetch and decode fault, which is a next state, or give an instruction, which has one. -/
theorem everyRunningCycleHasANextState : Obligations.EveryRunningCycleHasANextState := by
  intro s hh
  cases hf : fetchDecode s with
  | faulted t => exact ⟨t, step_faulted hh hf⟩
  | instr i =>
    obtain ⟨t, he⟩ := exec_has_next i s
    exact ⟨_, step_instr hh hf he⟩

/-- The cycle that runs `i` is `exec i` and the end of the cycle (R90, R93). -/
theorem step_of_runsNext {s t : State} {i : Instr} (h : runsNext s i) (he : exec i s = .next t) :
    step s = .next (endCycle i t) :=
  step_instr h.1 (fetchDecode_of_runsNext h) he

/-- Settles O7: `exec` answers a next state, and the step runs it to the end of the cycle. -/
theorem stepRunsTheDecodedInstruction : Obligations.StepRunsTheDecodedInstruction := by
  intro s i h
  obtain ⟨t, he⟩ := exec_has_next i s
  simp only [step_of_runsNext h he, he]

/-! ## The end of a cycle (R94 to R96) -/

@[simp] theorem countDown_toNat (b : Byte) : (countDown b).toNat = b.toNat - 1 := by
  unfold countDown
  split
  · next h => simp [h]
  · next h =>
    have hpos : 1 ≤ b.toNat := Nat.one_le_iff_ne_zero.mpr fun h0 => h (BitVec.eq_of_toNat_eq h0)
    exact BitVec.toNat_sub_of_le (BitVec.le_def.mpr hpos)

/-- CLS and DRW are the instructions whose cycle reports a changed frame (R94). -/
theorem marksFrame_iff {i : Instr} : marksFrame i = true ↔ i = .cls ∨ ∃ x y n, i = .drw x y n := by
  cases i <;> simp [marksFrame]

@[simp] theorem onlyChanges_bookkeeping {parts : List Part} {s t : State} (i : Instr) (hd : .delayTimer ∈ parts)
    (hs : .soundTimer ∈ parts) (ho : .outputs ∈ parts) (h : onlyChanges parts s t) :
    onlyChanges parts s (bookkeeping i t) := by
  intro p hp
  cases p with
  | delayTimer => exact absurd hd hp
  | soundTimer => exact absurd hs hp
  | outputs => exact absurd ho hp
  | _ => exact h _ hp

@[simp] theorem endCycle_halted (i : Instr) (s : State) : (endCycle i s).halted = s.halted := by
  unfold endCycle
  split <;> rfl

/-- A cycle that ends halted raised its fault in fetch or decode, or in the instruction, and skipped phase 4 (R93,
R214). -/
theorem step_next_halted {s t : State} (h : step s = .next t) (ht : t.halted = true) :
    fetchDecode s = .faulted t ∨ ∃ i, fetchDecode s = .instr i ∧ Raised i s t := by
  obtain ⟨hh, hf | ⟨i, u, hf, he, rfl⟩⟩ := step_next h
  · exact .inl hf
  · have hu : u.halted = true := by simpa using ht
    rw [endCycle_faulted hu]
    obtain ⟨hkept, -, -⟩ | hr := exec_completed_or_raised he
    · simp [hkept, hh] at hu
    · exact .inr ⟨i, hf, hr⟩

/-- A cycle that ends halted is the entry of a fault, and does nothing else (R214). -/
theorem eq_enterFault_of_step_next_halted {s t : State} (h : step s = .next t) (ht : t.halted = true) :
    ∃ c op a, t = enterFault s c op a := by
  obtain hf | ⟨i, -, c, a, -, -, rfl⟩ := step_next_halted h ht
  · rcases fetchDecode_cases s with ⟨-, he⟩ | ⟨-, -, he⟩ | ⟨i, -, -, he⟩ <;> rw [he] at hf <;> cases hf
    · exact ⟨_, _, _, rfl⟩
    · exact ⟨_, _, _, rfl⟩
  · exact ⟨_, _, _, rfl⟩

/-- Settles O12: a completed cycle ends in `bookkeeping`, which writes the timers and outputs alone; a faulting one is a
fault entry, which writes neither. -/
theorem cycleEndCountsTimersAndSetsOutputs : Obligations.CycleEndCountsTimersAndSetsOutputs := by
  constructor
  · intro s t i hrun he ht
    refine ⟨bookkeeping i t, ?_, marksFrame_iff, countDown_toNat _, countDown_toNat _, ?_, by simp⟩
    · rw [step_of_runsNext hrun he, endCycle_completed ht]
    · rw [bookkeeping_soundExpired, beq_iff_eq, ← BitVec.toNat_inj]
      rfl
  · intro s u hstep hu
    obtain ⟨c, op, a, rfl⟩ := eq_enterFault_of_step_next_halted hstep hu
    exact ⟨rfl, rfl, rfl, rfl⟩

/-! ## The halted state (R98, R215) -/

@[simp] theorem onlyChanges_setKeys {parts : List Part} {s t : State} (k : Vector Bool 16) (hw : .keypad ∈ parts)
    (h : onlyChanges parts s t) : onlyChanges parts s (setKeys k t) := by
  intro p hp
  cases p with
  | keypad => exact absurd hw hp
  | _ => exact h _ hp

/-- A load fails and changes nothing, or stores the ROM (R217, R242). -/
theorem act_load_cases (fontBytes : Vector Byte 80) (rom : List Byte) (s : State) :
    act fontBytes (.load rom) s = s ∨
      (0 < rom.length ∧ rom.length ≤ Config.romMax ∧
        act fontBytes (.load rom) s = storeBytes s Config.progBase rom) := by
  by_cases hempty : rom.length = 0
  · exact .inl (by simp [act, loadProgram, hempty])
  · by_cases hlarge : Config.romMax < rom.length
    · exact .inl (by simp [act, loadProgram, hempty, hlarge])
    · exact .inr ⟨Nat.pos_of_ne_zero hempty, Nat.le_of_not_lt hlarge, by simp [act, loadProgram, hempty, hlarge]⟩

/-- A cycle issued while halted has no effect (R231). -/
theorem act_cycle_of_halted (fontBytes : Vector Byte 80) {s : State} (h : s.halted = true) :
    act fontBytes .cycle s = s := by
  simp [act, step_halted h]

section Halted

variable {fontBytes : Vector Byte 80} {s t : State}

/-- While halted, an action of the host other than Reset reaches memory and the keypad alone. -/
theorem onlyChanges_act_of_halted {a : Action} (ha : a ≠ .reset) (ht : t.halted = true)
    (h : onlyChanges [.memory, .keypad] s t) : onlyChanges [.memory, .keypad] s (act fontBytes a t) := by
  cases a with
  | reset => exact absurd rfl ha
  | load rom => rcases act_load_cases fontBytes rom t with he | ⟨-, -, he⟩ <;> simp [he, h]
  | keys k => exact onlyChanges_setKeys k (by simp) h
  | cycle => rwa [act_cycle_of_halted fontBytes ht]

/-- What changes memory and the keypad alone leaves a halted state halted. -/
theorem halted_of_onlyChanges (hs : s.halted = true) (h : onlyChanges [.memory, .keypad] s t) : t.halted = true :=
  (h .faults (by simp)).1.trans hs

/-- The frame of a halted state along a sequence of actions without Reset: each action keeps the state halted, so the
next one has the same frame. -/
theorem onlyChanges_runActions_of_halted (hs : s.halted = true) {as : List Action} (has : .reset ∉ as)
    (h : onlyChanges [.memory, .keypad] s t) : onlyChanges [.memory, .keypad] s (runActions fontBytes as t) := by
  induction as generalizing t with
  | nil => exact h
  | cons a as ih =>
    obtain ⟨ha, has⟩ : .reset ≠ a ∧ .reset ∉ as := by simpa using has
    exact ih has (onlyChanges_act_of_halted (Ne.symm ha) (halted_of_onlyChanges hs h) h)

end Halted

/-- Settles O11, from the frame of a halted state along the actions; Reset takes the reset values. -/
theorem onlyResetEndsTheHaltedState : Obligations.OnlyResetEndsTheHaltedState := by
  intro fontBytes s hs
  refine ⟨by simp [step_halted hs], act_cycle_of_halted fontBytes hs, fun as has => ?_, rfl, rfl⟩
  have hframe : onlyChanges [.memory, .keypad] s (runActions fontBytes as s) :=
    onlyChanges_runActions_of_halted hs has (onlyChanges_refl _ s)
  exact ⟨halted_of_onlyChanges hs hframe, hframe⟩

end Sys2Proof.Machine

/-!
The statements about the display (41_display.md): one lemma for the pixels a composite leaves, one for its collision, and
from these DRW, the sprite drawn twice, and the clipping; then CLS and the two reads of the host.
-/

namespace Sys2Proof.Machine

/-! ## Compositing a sprite (R102 to R104) -/

section Composite

variable {x y row col : Nat}

/-- A composite inverts the pixels of the grid that the sprite covers, and no other (R102, R103). -/
theorem pixel_compositeSprite (fb : Frame) (sprite : List Byte) (hr : row < 32) (hc : col < 64) :
    pixel (compositeSprite fb x y sprite).1 row col =
      if (row, col) ∈ spritePixels x y sprite then !pixel fb row col else pixel fb row col := by
  simp [compositeSprite, pixel_togglePixels (spritePixels_nodup sprite x y), hr, hc]

/-- A pixel of the grid is inverted exactly when the sprite covers it. -/
theorem pixel_compositeSprite_eq_not_iff (fb : Frame) (sprite : List Byte) (hr : row < 32) (hc : col < 64) :
    pixel (compositeSprite fb x y sprite).1 row col = !pixel fb row col ↔ (row, col) ∈ spritePixels x y sprite := by
  rw [pixel_compositeSprite fb sprite hr hc]
  split
  · next hmem => simp [hmem]
  · next hmem => simp [hmem]

/-- A set pixel is in the grid, since outside nothing is read. -/
theorem inside_of_pixel_eq_true {fb : Frame} (h : pixel fb row col = true) : row < 32 ∧ col < 64 := by
  by_contra hout
  simp [pixel_outside hout] at h

/-- A composite collides exactly when a pixel of the grid goes from 1 to 0 (R102). -/
theorem compositeSprite_collision_iff (fb : Frame) (x y : Nat) (sprite : List Byte) :
    (compositeSprite fb x y sprite).2 = true ↔ ∃ row col, row < 32 ∧ col < 64 ∧ pixel fb row col = true ∧
      pixel (compositeSprite fb x y sprite).1 row col = false := by
  rw [compositeSprite, togglePixels_collision (spritePixels_nodup sprite x y), ← compositeSprite]
  constructor
  · rintro ⟨⟨row, col⟩, hmem, hset⟩
    obtain ⟨hr, hc⟩ := inside_of_pixel_eq_true hset
    exact ⟨row, col, hr, hc, hset, by simp [pixel_compositeSprite fb sprite hr hc, hmem, hset]⟩
  · rintro ⟨row, col, hr, hc, hset, hoff⟩
    have hinv : pixel (compositeSprite fb x y sprite).1 row col = !pixel fb row col := by rw [hset, hoff]; rfl
    exact ⟨(row, col), (pixel_compositeSprite_eq_not_iff fb sprite hr hc).mp hinv, hset⟩

/-- A sprite whose corner lies outside the grid covers no pixel of the grid (R103). -/
theorem not_mem_spritePixels_of_outside (sprite : List Byte) (h : 64 ≤ x ∨ 32 ≤ y) (hr : row < 32) (hc : col < 64) :
    (row, col) ∉ spritePixels x y sprite := by
  rw [mem_spritePixels]
  rintro ⟨r, -, c, -, -, hrow, hcol⟩
  omega

/-- A corner outside the grid draws nothing and reports no collision (R103). -/
theorem compositeSprite_outside (fb : Frame) (sprite : List Byte) (h : 64 ≤ x ∨ 32 ≤ y) :
    compositeSprite fb x y sprite = (fb, false) := by
  have hfb : (compositeSprite fb x y sprite).1 = fb := frame_ext fun row col hr hc => by
    rw [pixel_compositeSprite fb sprite hr hc, if_neg (not_mem_spritePixels_of_outside sprite h hr hc)]
  refine Prod.ext hfb (Bool.eq_false_iff.mpr fun hcoll => ?_)
  obtain ⟨row, col, -, -, hset, hoff⟩ := (compositeSprite_collision_iff fb x y sprite).mp hcoll
  rw [hfb, hset] at hoff
  cases hoff

/-- The second composite inverts the same pixels back (R107). -/
theorem compositeSprite_twice (fb : Frame) (x y : Nat) (sprite : List Byte) :
    (compositeSprite (compositeSprite fb x y sprite).1 x y sprite).1 = fb := frame_ext fun row col hr hc => by
  rw [pixel_compositeSprite _ sprite hr hc, pixel_compositeSprite fb sprite hr hc]
  split
  · exact Bool.not_not _
  · rfl

end Composite

/-- Settles O16: the pixels covered are those of `spritePixels`, each reached once. -/
theorem compositeSpriteClipsAndReportsCollision : Obligations.CompositeSpriteClipsAndReportsCollision := by
  intro fb x y sprite
  refine ⟨fun row col hr hc => ?_, compositeSprite_collision_iff fb x y sprite, compositeSprite_outside fb sprite⟩
  rw [pixel_compositeSprite_eq_not_iff fb sprite hr hc, mem_spritePixels]

/-- Settles O17: the second composite ends in `fb`, so a pixel it clears is one that the first turned on. -/
theorem drawingASpriteTwiceRestoresTheFrame : Obligations.DrawingASpriteTwiceRestoresTheFrame := by
  intro fb x y sprite
  refine ⟨compositeSprite_twice fb x y sprite, ?_⟩
  rw [compositeSprite_collision_iff, compositeSprite_twice]
  simp only [and_comm]

/-! ## CLS and DRW (R105, R106) -/

/-- A completed cycle of CLS or DRW sets `frame_changed` (R94). -/
theorem step_frameChanged_of_marksFrame {s t : State} {i : Instr} (hm : marksFrame i = true) (he : exec i s = .next t)
    (ht : t.halted = s.halted) (hrun : runsNext s i) : ∃ u, step s = .next u ∧ u.frameChanged = true := by
  have hrunning : t.halted = false := ht.trans hrun.1
  exact ⟨bookkeeping i t, by rw [step_of_runsNext hrun he, endCycle_completed hrunning], hm⟩

/-- Settles O14: CLS replaces the framebuffer by the grid without a set pixel. -/
theorem clsTurnsEveryPixelOff : Obligations.ClsTurnsEveryPixelOff := by
  refine ⟨⟨rfl, decodeWord_encode .cls⟩, fun s => ?_⟩
  have he : exec .cls s = .next (nextInstr (setFrame s clearFrame)) := rfl
  exact ⟨_, he, pixel_clearFrame, rfl, by simp, step_frameChanged_of_marksFrame rfl he rfl⟩

/-- The sprite of DRW covers the pixels that its composite inverts (R106). -/
theorem spriteCovers_iff {s : State} {x y n : Nibble} {row col : Nat} : spriteCovers s x y n row col ↔
    (row, col) ∈ spritePixels (reg s x).toNat (reg s y).toNat (bytesAtI s n.toNat) := by
  simp [spriteCovers, mem_spritePixels, bytesAtI, readByte]

/-- The new grid and the collision of DRW: the bytes at I composited at column `Vx`, row `Vy` (R106). -/
def drwComposite (x y n : Nibble) (s : State) : Frame × Bool :=
  compositeSprite s.fb (reg s x).toNat (reg s y).toNat (bytesAtI s n.toNat)

/-- DRW with its sprite bytes inside memory (R106). -/
theorem exec_drw_inside {x y n : Nibble} {s : State} (h : n.toNat = 0 ∨ s.i.toNat + n.toNat ≤ 0x1000) :
    exec (.drw x y n) s = .next (nextInstr (setReg (setFrame s (drwComposite x y n s).1) vF
      (collisionFlag (drwComposite x y n s).2))) :=
  withBytesAtI_inside h

/-- DRW inverts exactly the pixels of the grid that its sprite covers. -/
theorem pixel_drwComposite {x y n : Nibble} {s : State} {row col : Nat} (hr : row < 32) (hc : col < 64) :
    (spriteCovers s x y n row col → pixel (drwComposite x y n s).1 row col = !pixel s.fb row col) ∧
      (¬spriteCovers s x y n row col → pixel (drwComposite x y n s).1 row col = pixel s.fb row col) := by
  rw [spriteCovers_iff, drwComposite, pixel_compositeSprite s.fb _ hr hc]
  exact ⟨fun h => if_pos h, fun h => if_neg h⟩

/-- An instruction that writes `V[x]` last leaves what it wrote there. -/
theorem reg_nextInstr_setReg (s : State) (x : Nibble) (b : Byte) : reg (nextInstr (setReg s x b)) x = b := by
  rw [reg_nextInstr, reg_setReg, if_pos rfl]

/-- Settles O15: inside memory DRW is the composite of the bytes at I, then its collision in VF; outside it is the fault
entry of `withBytesAtI`. -/
theorem drwXorsTheSpriteAndSetsCollision : Obligations.DrwXorsTheSpriteAndSetsCollision := by
  intro x y n s
  refine ⟨⟨rfl, decodeWord_encode (.drw x y n)⟩, fun hin => ?_, fun hn hout => withBytesAtI_outside hn hout⟩
  have he := exec_drw_inside (x := x) (y := y) hin
  have hcoll := compositeSprite_collision_iff s.fb (reg s x).toNat (reg s y).toNat (bytesAtI s n.toNat)
  refine ⟨_, he, fun row col hr hc => pixel_drwComposite hr hc, fun h => ?_, fun h => ?_, rfl, exec_regsKept he,
    onlyChanges_nextInstr (by simp) (by simp), step_frameChanged_of_marksFrame rfl he rfl⟩
  · rw [reg_nextInstr_setReg, drwComposite, hcoll.mpr h]
    rfl
  · rw [reg_nextInstr_setReg, drwComposite, Bool.eq_false_iff.mpr (mt hcoll.mp h)]
    rfl

/-! ## The reads of the host (R108, R109) -/

/-- Settles O18, by the test of `Get` on the corner. -/
theorem getReadsThePixelOrReportsPixelRange : Obligations.GetReadsThePixelOrReportsPixelRange := by
  intro s col row
  refine ⟨fun hr hc => ?_, fun hout => if_neg (by omega)⟩
  rw [getPixel, if_pos ⟨hc, hr⟩, pixel_inside hr hc]

/-- A pixel times a multiplier is the multiplier, or 0 when the pixel is off (R109). -/
theorem bitByte_mul (p : Bool) (b : Byte) : bitByte p * b = if p = true then b else 0 := by
  cases p
  · exact BitVec.zero_mul
  · exact BitVec.one_mul b

/-- Settles O19: the row, the column and the channel are read back from the index `3 * (row * 64 + col) + ch`. -/
theorem packedColorScalesEachPixelByChannel : Obligations.PackedColorScalesEachPixelByChannel := by
  intro s scale row col ch hr hc hch
  have hrow : (3 * (row * 64 + col) + ch) / 3 / 64 = row := by omega
  have hcol : (3 * (row * 64 + col) + ch) / 3 % 64 = col := by omega
  have hchan : (3 * (row * 64 + col) + ch) % 3 = ch := by omega
  simp only [toPackedColor, Vector.getElem_ofFn, hrow, hcol, hchan, bitByte_mul, pixel_inside hr hc]

end Sys2Proof.Machine

/-!
The statements about control transfer (42_control_flow.md): the jumps, CALL and RET and the entry they share, and the
skips, with the words beside theirs that have no entry and the fetch after a skip past the end of memory.
-/

namespace Sys2Proof

/-! ## The words beside SE Vx, Vy and SNE Vx, Vy (R77) -/

@[simp] theorem fieldMsn_or (a b : Word) : fieldMsn (a ||| b) = fieldMsn a ||| fieldMsn b := extract_or a b _ _
@[simp] theorem fieldMsn_atX (x : Nibble) : fieldMsn (atX x) = 0#4 := by revert x; decide
@[simp] theorem fieldMsn_atY (y : Nibble) : fieldMsn (atY y) = 0#4 := by revert y; decide
@[simp] theorem fieldMsn_n (n : Nibble) : fieldMsn (n.setWidth 16) = 0#4 := by revert n; decide

/-- The operands of a word `pxyn` leave its most significant nibble to the pattern. -/
theorem fieldMsn_xyn (p : Word) (x y n : Nibble) :
    fieldMsn (p ||| atX x ||| atY y ||| n.setWidth 16) = fieldMsn p := by
  simp

/-- The last nibble of a word `pxyn` is the `n` on top of the pattern's own. -/
theorem fieldN_xyn {p : Word} (hp : fieldN p = 0#4) (x y n : Nibble) :
    fieldN (p ||| atX x ||| atY y ||| n.setWidth 16) = n := by
  simp [hp]

/-- 5xyN and 9xyN with `N` other than 0 have no entry (R77). -/
theorem decodeWord_eq_none_of_lsn {op : Word} (hmsn : fieldMsn op = 0x5#4 ∨ fieldMsn op = 0x9#4) (hlsn : fieldN op ≠ 0) :
    decodeWord op = none := by
  refine (opcodesWithoutEntryAreExactlyTheListed op).mpr ?_
  rcases hmsn with h5 | h9
  · exact .inr (.inl ⟨h5, hlsn⟩)
  · exact .inr (.inr (.inr (.inl ⟨h9, hlsn⟩)))

end Sys2Proof

namespace Sys2Proof.Machine

/-- Every instruction is encoded as its own word, which the decoder reads back (R74). -/
theorem encodedAs_encode (i : Instr) : encodedAs i (encode i) := ⟨rfl, decodeWord_encode i⟩

/-! ## Jumps (R123, R131) -/

@[simp] theorem zextAddr_toNat (nnn : Addr12) : (zextAddr nnn).toNat = nnn.toNat :=
  BitVec.toNat_setWidth_of_le (by decide)

@[simp] theorem zextByte_toNat (b : Byte) : (zextByte b).toNat = b.toNat :=
  BitVec.toNat_setWidth_of_le (by decide)

/-- A byte added to a 12-bit address stays below 2^16, so the sum of R131 needs no mask. -/
theorem zextByte_add_zextAddr_toNat (b : Byte) (nnn : Addr12) :
    (zextByte b + zextAddr nnn).toNat = b.toNat + nnn.toNat := by
  have hb : b.toNat < 256 := b.isLt
  have hn : nnn.toNat < 4096 := nnn.isLt
  rw [BitVec.toNat_add_of_lt (by simp; omega), zextByte_toNat, zextAddr_toNat]

theorem onlyChanges_pc_jumpTo (s : State) (w : Word) : onlyChanges [.pc] s (jumpTo s w) :=
  onlyChanges_jumpTo w (by simp) (onlyChanges_refl _ s)

/-- Settles O20: both are one `jumpTo`, and the sum of JP V0 does not wrap. -/
theorem jumpsGoToTheirTargets : Obligations.JumpsGoToTheirTargets := by
  intro nnn s
  refine ⟨encodedAs_encode (.jp nnn), encodedAs_encode (.jpV0 nnn), ?_, ?_⟩
  · exact ⟨_, rfl, zextAddr_toNat nnn, onlyChanges_pc_jumpTo s _⟩
  · exact ⟨_, rfl, zextByte_add_zextAddr_toNat (reg s 0) nnn, onlyChanges_pc_jumpTo s _⟩

/-! ## CALL and RET (R121, R122, R129) -/

/-- A push writes the entry at `SP` and keeps every other one (R121). -/
theorem push_stack_getElem (s : State) (w : Word) (h : s.sp.val < 16) (j : Nat) (hj : j < 16) :
    (push s w h).stack[j] = if j = s.sp.val then w else s.stack[j] := by
  simp only [push_stack, Vector.getElem_set, eq_comm]

/-- Settles O21: with a free entry CALL is a push and a jump, else the fault entry of STACK_OVERFLOW. -/
theorem callPushesTheNextAddressOrOverflows : Obligations.CallPushesTheNextAddressOrOverflows := by
  intro nnn s
  refine ⟨encodedAs_encode (.call nnn), fun hs => ?_, fun hs => execCall_of_full (by omega)⟩
  have hframe : onlyChanges [.stack, .sp, .pc] s (push s (s.pc + 2) hs) :=
    onlyChanges_push _ hs (by simp) (by simp) (onlyChanges_refl _ s)
  exact ⟨_, execCall_of_lt hs, push_stack_getElem s _ hs, rfl, zextAddr_toNat nnn,
    onlyChanges_jumpTo _ (by simp) hframe⟩

/-- Settles O22: with an entry in use RET is a pop and a jump, else the fault entry of STACK_UNDERFLOW. -/
theorem retPopsItsTargetOrUnderflows : Obligations.RetPopsItsTargetOrUnderflows := by
  refine ⟨encodedAs_encode .ret, fun s => ⟨fun hs => ?_, fun hs => execRet_of_empty (by omega)⟩⟩
  have hframe : onlyChanges [.sp, .pc] s (pop s hs) := onlyChanges_pop hs (by simp) (onlyChanges_refl _ s)
  exact ⟨_, execRet_of_pos hs, rfl, rfl, onlyChanges_jumpTo _ (by simp) hframe⟩

/-- RET one entry above `k` goes to entry `k` and leaves `SP` there (R122). -/
theorem exec_ret_of_sp_eq_succ {u : State} {k : Nat} (hk : k < 16) (hsp : u.sp.val = k + 1) :
    ∃ w, exec .ret u = .next w ∧ w.pc = u.stack[k] ∧ w.sp.val = k := by
  have hpos : 0 < u.sp.val := by omega
  exact ⟨_, execRet_of_pos hpos, by simp [stackTop, hsp], by simp [hsp]⟩

/-- Settles O23: the CALL pushed its PC + 2 at its own `SP`, and the RET pops the entry there. -/
theorem retReturnsAfterItsCall : Obligations.RetReturnsAfterItsCall := by
  intro nnn s t u h hcall hsp hentry
  obtain rfl : jumpTo (push s (s.pc + 2) h) (zextAddr nnn) = t :=
    Host.Outcome.next.inj ((execCall_of_lt h).symm.trans hcall)
  obtain ⟨w, hret, hpc, hwsp⟩ := exec_ret_of_sp_eq_succ h (congrArg Fin.val hsp)
  refine ⟨w, hret, ?_, Fin.ext hwsp⟩
  calc w.pc
      = (push s (s.pc + 2) h).stack[s.sp.val] := hpc.trans hentry
    _ = s.pc + 2 := by rw [push_stack_getElem, if_pos rfl]

/-! ## Skips (R124 to R128) -/

/-- A skip on equal bytes is taken exactly when they are equal (R124, R126). -/
theorem skipIf_beq_pc (a b : Byte) (s : State) :
    (skipIf (a == b) s).pc = if a = b then s.pc + 4 else s.pc + 2 := by
  simp

/-- A skip on different bytes is the other way round (R125, R127). -/
theorem skipIf_bne_pc (a b : Byte) (s : State) :
    (skipIf (a != b) s).pc = if a = b then s.pc + 2 else s.pc + 4 := by
  simp

theorem onlyChanges_pc_skipIf (taken : Bool) (s : State) : onlyChanges [.pc] s (skipIf taken s) :=
  onlyChanges_skipIf taken (by simp) (onlyChanges_refl _ s)

/-- Settles O24: both are one `skipIf`, on `Vx` equal to or different from `kk`. -/
theorem immediateSkipsCompareTheRegister : Obligations.ImmediateSkipsCompareTheRegister := by
  intro x kk s
  refine ⟨encodedAs_encode (.seImm x kk), encodedAs_encode (.sneImm x kk), ?_, ?_⟩
  · exact ⟨_, rfl, onlyChanges_pc_skipIf _ s, skipIf_beq_pc (reg s x) kk s⟩
  · exact ⟨_, rfl, onlyChanges_pc_skipIf _ s, skipIf_bne_pc (reg s x) kk s⟩

/-- Settles O25: both are one `skipIf`, on `Vx` equal to or different from `Vy`; R77 lists the words beside theirs. -/
theorem registerSkipsCompareTheRegisters : Obligations.RegisterSkipsCompareTheRegisters := by
  intro x y s
  refine ⟨encodedAs_encode (.seReg x y), encodedAs_encode (.sneReg x y), fun n hn => ⟨?_, ?_⟩, ?_, ?_⟩
  · exact decodeWord_eq_none_of_lsn (.inl (fieldMsn_xyn 0x5000 x y n)) ((fieldN_xyn rfl x y n).trans_ne hn)
  · exact decodeWord_eq_none_of_lsn (.inr (fieldMsn_xyn 0x9000 x y n)) ((fieldN_xyn rfl x y n).trans_ne hn)
  · exact ⟨_, rfl, onlyChanges_pc_skipIf _ s, skipIf_beq_pc (reg s x) (reg s y) s⟩
  · exact ⟨_, rfl, onlyChanges_pc_skipIf _ s, skipIf_bne_pc (reg s x) (reg s y) s⟩

/-- From a PC inside memory the sums of R128 do not wrap. -/
theorem toNat_add_of_pc_inside {pc d : Word} (hpc : pc.toNat + 1 ≤ 0xFFF) (hd : d.toNat ≤ 4) :
    (pc + d).toNat = pc.toNat + d.toNat :=
  BitVec.toNat_add_of_lt (by omega)

/-- Settles O26: the sums do not wrap, since the skip itself was fetched inside memory, so the new PC is at or above
0xFFF, where the next fetch faults (R91). -/
theorem skippingPastTheEndFaultsAtTheNextFetch : Obligations.SkippingPastTheEndFaultsAtTheNextFetch := by
  intro s t i _ ⟨_, hin, _⟩ _ ht
  have hfault : 0xFFF ≤ t.pc.toNat → step t = .next (haltedWith t ⟨.fetchRange, t.pc, none, none⟩) :=
    (fetchIsBigEndianAndRangeChecked t ht).2
  refine ⟨fun hpc hend => ?_, fun hpc hend => ?_⟩
  · have hnew : t.pc.toNat = s.pc.toNat + 4 := hpc ▸ toNat_add_of_pc_inside hin (by decide)
    exact ⟨by omega, hfault (by omega)⟩
  · have hnew : t.pc.toNat = s.pc.toNat + 2 := hpc ▸ toNat_add_of_pc_inside hin (by decide)
    refine ⟨?_, hfault (by omega)⟩
    rcases (by omega : t.pc.toNat = 0xFFF ∨ t.pc.toNat = 0x1000) with h | h
    · exact .inl (BitVec.eq_of_toNat_eq h)
    · exact .inr (BitVec.eq_of_toNat_eq h)

end Sys2Proof.Machine

/-!
The statements about the ALU (43_alu.md). An instruction here writes `V[x]`, and VF after it when it has a flag, and
goes to the next instruction. What that leaves unchanged is said once for each of the two; each result and each flag is
an equation about the byte written.
-/

namespace Sys2Proof.Machine

/-! ## One register write, then the next instruction -/

section Write

variable (s : State) (x : Nibble) (b f : Byte)

/-- Writing `V[x]` and going on moves PC by 2 and keeps all else. -/
theorem frame_nextInstr_setReg : (nextInstr (setReg s x b)).pc = s.pc + 2 ∧ regsKept [x] s (nextInstr (setReg s x b)) ∧
    onlyChanges [.regs, .pc] s (nextInstr (setReg s x b)) :=
  ⟨rfl, regsKept_setReg x b (by simp) (regsKept_refl _ s), by simp⟩

/-- Writing `V[x]` and then VF and going on moves PC by 2 and keeps all else (R140). -/
theorem frame_nextInstr_setRegFlag : (nextInstr (setRegFlag s x b f)).pc = s.pc + 2 ∧
    regsKept [x, vF] s (nextInstr (setRegFlag s x b f)) ∧ onlyChanges [.regs, .pc] s (nextInstr (setRegFlag s x b f)) :=
  ⟨rfl, regsKept_setReg vF f (by simp) (regsKept_setReg x b (by simp) (regsKept_refl _ s)), by simp⟩

variable {x}

/-- A result survives the flag written after it unless its register is VF (R140). -/
theorem reg_nextInstr_setRegFlag_of_ne (hx : x ≠ vF) : reg (nextInstr (setRegFlag s x b f)) x = b := by
  rw [reg_nextInstr, reg_setRegFlag, if_neg hx, if_pos rfl]

end Write

/-! ## The results and the flags as numbers -/

/-- The difference modulo 256 as R149 and R151 write it. -/
theorem toNat_byte_sub (a b : Byte) : (a - b).toNat = (a.toNat + 256 - b.toNat) % 256 := by
  have hb : b.toNat < 256 := b.isLt
  rw [BitVec.toNat_sub]
  omega

theorem toNat_byte_shiftRight_one (a : Byte) : (a >>> 1).toNat = a.toNat / 2 := by
  rw [BitVec.toNat_ushiftRight, Nat.shiftRight_eq_div_pow, Nat.pow_one]

theorem toNat_byte_shiftLeft_one (a : Byte) : (a <<< 1).toNat = a.toNat * 2 % 256 := by
  rw [BitVec.toNat_shiftLeft, Nat.shiftLeft_eq, Nat.pow_one]

/-- A decidable condition as a flag (R7). -/
theorem bitByte_decide (p : Prop) [Decidable p] : bitByte (decide p) = if p then 1 else 0 := by
  simp [bitByte]

theorem carryFlag_eq (a b : Byte) : carryFlag a b = if 255 < a.toNat + b.toNat then 1 else 0 := bitByte_decide _

theorem greaterFlag_eq (a b : Byte) : greaterFlag a b = if b.toNat < a.toNat then 1 else 0 := bitByte_decide _

/-- Bit `k` of a byte as a flag is a digit of the byte in base 2. -/
theorem toNat_bitByte_getLsbD (a : Byte) (k : Nat) : (bitByte (a.getLsbD k)).toNat = a.toNat / 2 ^ k % 2 := by
  rw [← Nat.toNat_testBit, BitVec.getLsbD]
  cases a.toNat.testBit k <;> rfl

theorem toNat_lowBitFlag (a : Byte) : (lowBitFlag a).toNat = a.toNat % 2 := by
  rw [lowBitFlag, toNat_bitByte_getLsbD, Nat.pow_zero, Nat.div_one]

/-- Above bit 7 a byte has no digit, so the quotient is the bit itself. -/
theorem toNat_highBitFlag (a : Byte) : (highBitFlag a).toNat = a.toNat / 128 := by
  have ha : a.toNat < 256 := a.isLt
  rw [highBitFlag, toNat_bitByte_getLsbD]
  omega

/-! ## Flag writers (R148 to R152) -/

/-- Settles O30: the result is the sum of the bytes, and the flag, written last, is their carry. -/
theorem addRegisterSetsCarryLast : Obligations.AddRegisterSetsCarryLast := by
  intro x y s
  refine ⟨encodedAs_encode (.addReg x y), _, rfl, fun hx => ?_, ?_, frame_nextInstr_setRegFlag s x _ _⟩
  · rw [reg_nextInstr_setRegFlag_of_ne s _ _ hx, BitVec.toNat_add]
  · rw [reg_nextInstr, reg_vF_setRegFlag, carryFlag_eq]

/-- A subtraction `a - b` into `V[x]`, then whether `a` is strictly greater into VF, and the next instruction. -/
theorem subtraction_effect {s t : State} {x : Nibble} {a b : Byte}
    (ht : t = nextInstr (setRegFlag s x (a - b) (greaterFlag a b))) :
    (x ≠ vF → (reg t x).toNat = (a.toNat + 256 - b.toNat) % 256) ∧ (reg t vF = if b.toNat < a.toNat then 1 else 0) ∧
      t.pc = s.pc + 2 ∧ regsKept [x, vF] s t ∧ onlyChanges [.regs, .pc] s t := by
  subst ht
  refine ⟨fun hx => ?_, ?_, frame_nextInstr_setRegFlag s x _ _⟩
  · rw [reg_nextInstr_setRegFlag_of_ne s _ _ hx, toNat_byte_sub]
  · rw [reg_nextInstr, reg_vF_setRegFlag, greaterFlag_eq]

/-- Settles O31: SUB and SUBN are one subtraction with its operands exchanged. -/
theorem subtractionsSetStrictlyGreaterLast : Obligations.SubtractionsSetStrictlyGreaterLast := by
  intro x y s
  refine ⟨encodedAs_encode (.sub x y), encodedAs_encode (.subn x y), ?_, ?_⟩
  · exact ⟨_, rfl, subtraction_effect (a := reg s x) (b := reg s y) rfl⟩
  · exact ⟨_, rfl, subtraction_effect (a := reg s y) (b := reg s x) rfl⟩

/-- Settles O32: the shifts are a division and a product by 2, and the bit shifted out is the remainder modulo 2,
respectively the quotient by 128. -/
theorem shiftsSetTheBitShiftedOutLast : Obligations.ShiftsSetTheBitShiftedOutLast := by
  intro x y s
  refine ⟨encodedAs_encode (.shr x y), encodedAs_encode (.shl x y),
    ⟨_, rfl, fun hx => ?_, ?_, frame_nextInstr_setRegFlag s x _ _⟩,
    ⟨_, rfl, fun hx => ?_, ?_, frame_nextInstr_setRegFlag s x _ _⟩⟩
  · rw [reg_nextInstr_setRegFlag_of_ne s _ _ hx, toNat_byte_shiftRight_one]
  · rw [reg_nextInstr, reg_vF_setRegFlag, toNat_lowBitFlag]
  · rw [reg_nextInstr_setRegFlag_of_ne s _ _ hx, toNat_byte_shiftLeft_one]
  · rw [reg_nextInstr, reg_vF_setRegFlag, toNat_highBitFlag]

/-! ## Loads, ADD immediate and logic (R141 to R146) -/

/-- Settles O27: both are one write of the operand. -/
theorem registerLoadsWriteTheirOperand : Obligations.RegisterLoadsWriteTheirOperand := by
  intro x y kk s
  refine ⟨encodedAs_encode (.ldImm x kk), encodedAs_encode (.ldReg x y), ?_, ?_⟩
  · exact ⟨_, rfl, reg_nextInstr_setReg s x kk, frame_nextInstr_setReg s x kk⟩
  · exact ⟨_, rfl, reg_nextInstr_setReg s x (reg s y), frame_nextInstr_setReg s x (reg s y)⟩

/-- Settles O28: the one write is the sum of the bytes, which is the sum modulo 256. -/
theorem addImmediateWrapsWithoutAFlag : Obligations.AddImmediateWrapsWithoutAFlag := by
  intro x kk s
  refine ⟨encodedAs_encode (.addImm x kk), _, rfl, ?_, frame_nextInstr_setReg s x _⟩
  rw [reg_nextInstr_setReg, BitVec.toNat_add]

/-- Settles O29: the one write is the bitwise operation of the two bytes. -/
theorem logicActsBitByBitWithoutAFlag : Obligations.LogicActsBitByBitWithoutAFlag := by
  intro x y s
  refine ⟨encodedAs_encode (.or x y), encodedAs_encode (.and x y), encodedAs_encode (.xor x y),
    ⟨_, rfl, fun k => ?_, frame_nextInstr_setReg s x _⟩, ⟨_, rfl, fun k => ?_, frame_nextInstr_setReg s x _⟩,
    ⟨_, rfl, fun k => ?_, frame_nextInstr_setReg s x _⟩⟩
  · rw [reg_nextInstr_setReg, BitVec.getLsbD_or]
  · rw [reg_nextInstr_setReg, BitVec.getLsbD_and]
  · rw [reg_nextInstr_setReg, BitVec.getLsbD_xor]

/-! ## RND (R153) -/

/-- Settles O33: the one write is the draw at the counter, masked, and consuming the draw leaves the registers. -/
theorem rndMasksOneFreshDraw : Obligations.RndMasksOneFreshDraw := by
  intro x kk s
  have he : exec (.rnd x kk) s = .next (nextInstr (consumeDraw (setReg s x (randomByte s &&& kk)))) := rfl
  have hwrite (b : Byte) : onlyChanges [.regs, .pc, .draws] s (consumeDraw (setReg s x b)) := by simp
  refine ⟨encodedAs_encode (.rnd x kk), _, he, fun k => ?_, rfl, rfl, exec_regsKept he,
    onlyChanges_nextInstr (by simp) (hwrite _)⟩
  rw [reg_nextInstr, reg_consumeDraw, reg_setReg, if_pos rfl, BitVec.getLsbD_and, randomByte]

end Sys2Proof.Machine

/-!
The statements about the index register and the transfers at I (44_index_memory.md): the three writers of I and that no
other instruction writes it, and LD B, LD [I] and LD Vx, [I] with their bytes inside memory and past its end.
-/

namespace Sys2Proof.Machine

/-! ## The writers of I (R170 to R172, R176) -/

/-- The sum of R171 modulo 2^16. -/
theorem add_zextByte_toNat (w : Word) (b : Byte) : (w + zextByte b).toNat = (w.toNat + b.toNat) % 65536 := by
  rw [BitVec.toNat_add, zextByte_toNat]

/-- The address of R172 is at most 0x54B for any byte, so it does not wrap. -/
theorem glyphAddress_toNat (b : Byte) : (0x050 + 5 * zextByte b : Word).toNat = 0x050 + 5 * b.toNat := by
  have hb : b.toNat < 256 := b.isLt
  have hbase : (0x050 : Word).toNat = 0x050 := rfl
  have hsize : (5 : Word).toNat = 5 := rfl
  rw [BitVec.toNat_add, BitVec.toNat_mul, zextByte_toNat, hbase, hsize]
  omega

/-- Writing I and going on moves PC by 2 and keeps all else. -/
theorem frame_nextInstr_setIndex (s : State) (w : Word) : (nextInstr (setIndex s w)).pc = s.pc + 2 ∧
    onlyChanges [.index, .pc] s (nextInstr (setIndex s w)) :=
  ⟨rfl, by simp⟩

/-- Settles O35: each is one write of I, and the address of a glyph does not wrap. -/
theorem indexWritersSetI : Obligations.IndexWritersSetI := by
  intro nnn x s
  refine ⟨encodedAs_encode (.ldI nnn), encodedAs_encode (.addIVx x), encodedAs_encode (.ldFVx x), ?_, ?_, ?_⟩
  · exact ⟨_, rfl, zextAddr_toNat nnn, frame_nextInstr_setIndex s _⟩
  · exact ⟨_, rfl, add_zextByte_toNat s.i (reg s x), frame_nextInstr_setIndex s _⟩
  · exact ⟨_, rfl, glyphAddress_toNat (reg s x), frame_nextInstr_setIndex s _⟩

/-- An instruction that does not list I among its parts leaves I (R26). -/
theorem exec_i_of_not_mem {i : Instr} {s t : State} (he : exec i s = .next t) (hi : .index ∉ writesParts i) :
    t.i = s.i :=
  exec_onlyChanges he .index (by simp [hi])

/-- Settles O39: the three writers by what they write, every other instruction by its frame. -/
theorem onlyThreeInstructionsWriteI : Obligations.OnlyThreeInstructionsWriteI := by
  intro i s t he
  cases i with
  | ldI nnn =>
    cases he
    exact zextAddr_toNat nnn
  | addIVx x =>
    cases he
    exact add_zextByte_toNat s.i (reg s x)
  | ldFVx x =>
    cases he
    have hb : (reg s x).toNat < 256 := (reg s x).isLt
    exact (glyphAddress_toNat (reg s x)).trans (Nat.mod_eq_of_lt (by omega)).symm
  | _ => exact congrArg BitVec.toNat (exec_i_of_not_mem he (by simp [writesParts]))

/-! ## Bytes stored at I, then the next instruction (R173, R174) -/

/-- A stored byte is read back at its own place (R57). -/
theorem readByte_storeBytes_getElem (s : State) (base : Nat) (bs : List Byte) {k : Nat} (hk : k < bs.length) :
    readByte (storeBytes s base bs) (base + k) = bs[k] := by
  simp [readByte, read_writeBytes, hk]

/-- Storing `n + 1` bytes and going on keeps the bytes below and above them, moves PC by 2 and keeps all else. -/
theorem frame_nextInstr_storeBytes (s : State) (base : Nat) {bs : List Byte} {n : Nat} (hn : bs.length = n + 1) :
    (∀ a, a < base ∨ base + n < a → readByte (nextInstr (storeBytes s base bs)) a = readByte s a) ∧
      (nextInstr (storeBytes s base bs)).pc = s.pc + 2 ∧
      onlyChanges [.memory, .pc] s (nextInstr (storeBytes s base bs)) := by
  refine ⟨fun a ha => ?_, rfl, by simp⟩
  have hout : ¬(base ≤ a ∧ a - base < bs.length) := by omega
  rw [readByte, nextInstr_mem, storeBytes_mem, read_writeBytes, dif_neg hout, readByte]

@[simp] theorem decimalDigits_length (b : Byte) : (decimalDigits b).length = 3 := rfl

/-- The hundreds, the tens and the ones of a byte each fit a byte (R173). -/
theorem decimalDigits_toNat (b : Byte) :
    (decimalDigits b)[0].toNat = b.toNat / 100 ∧ (decimalDigits b)[1].toNat = b.toNat / 10 % 10 ∧
      (decimalDigits b)[2].toNat = b.toNat % 10 := by
  have hb : b.toNat < 256 := b.isLt
  exact ⟨Nat.mod_eq_of_lt (by omega), Nat.mod_eq_of_lt (by omega), Nat.mod_eq_of_lt (by omega)⟩

/-- LD B with its three bytes inside memory (R173). -/
theorem exec_ldBVx_inside {x : Nibble} {s : State} (h : s.i.toNat + 2 ≤ 0xFFF) :
    exec (.ldBVx x) s = .next (nextInstr (storeBytes s s.i.toNat (decimalDigits (reg s x)))) :=
  withBytesAtI_inside (.inr (by omega))

/-- Settles O36: inside memory the stored bytes are the digits; outside it is the fault entry of `withBytesAtI`. -/
theorem bcdStoresThreeDigits : Obligations.BcdStoresThreeDigits := by
  intro x s
  refine ⟨encodedAs_encode (.ldBVx x), fun hin => ?_, fun hout => withBytesAtI_outside (by decide) (by omega)⟩
  have hstored (k : Nat) (hk : k < 3) :
      (readByte (storeBytes s s.i.toNat (decimalDigits (reg s x))) (s.i.toNat + k)).toNat =
        (decimalDigits (reg s x))[k].toNat :=
    congrArg BitVec.toNat (readByte_storeBytes_getElem s _ _ hk)
  obtain ⟨hhundreds, htens, hones⟩ := decimalDigits_toNat (reg s x)
  exact ⟨_, exec_ldBVx_inside hin, (hstored 0 (by decide)).trans hhundreds, (hstored 1 (by decide)).trans htens,
    (hstored 2 (by decide)).trans hones, frame_nextInstr_storeBytes s _ rfl⟩

/-- LD [I], Vx with its bytes inside memory (R174). -/
theorem exec_ldMemVx_inside {x : Nibble} {s : State} (h : s.i.toNat + x.toNat ≤ 0xFFF) :
    exec (.ldMemVx x) s = .next (nextInstr (storeBytes s s.i.toNat (regsUpTo s x))) :=
  withBytesAtI_inside (.inr (by omega))

/-- Settles O37: inside memory the stored bytes are the registers; outside it is the fault entry of `withBytesAtI`. -/
theorem storeRegistersWritesV0ToVx : Obligations.StoreRegistersWritesV0ToVx := by
  intro x s
  refine ⟨encodedAs_encode (.ldMemVx x), fun hin => ?_,
    fun hout => withBytesAtI_outside (Nat.succ_ne_zero _) (by omega)⟩
  exact ⟨_, exec_ldMemVx_inside hin, fun r hr => readByte_storeBytes_regsUpTo s hr,
    frame_nextInstr_storeBytes s _ (regsUpTo_length s x)⟩

/-! ## Bytes loaded from I, then the next instruction (R175) -/

/-- Loading the `x + 1` bytes at I fills V0 to Vx and keeps the registers above. -/
theorem reg_setRegsFrom_bytesAtI (s : State) (x r : Nibble) :
    reg (setRegsFrom s 0 (bytesAtI s (x.toNat + 1))) r =
      if r.toNat ≤ x.toNat then readByte s (s.i.toNat + r.toNat) else reg s r := by
  have hlen : (bytesAtI s (x.toNat + 1)).length = x.toNat + 1 := readBytes_length _ _ _
  have hx : x.toNat < 16 := x.isLt
  rw [reg_setRegsFrom _ s 0 (by omega)]
  simp [bytesAtI, readByte]

/-- LD Vx, [I] with its bytes inside memory (R175). -/
theorem exec_ldVxMem_inside {x : Nibble} {s : State} (h : s.i.toNat + x.toNat ≤ 0xFFF) :
    exec (.ldVxMem x) s = .next (nextInstr (setRegsFrom s 0 (bytesAtI s (x.toNat + 1)))) :=
  withBytesAtI_inside (.inr (by omega))

/-- Settles O38: inside memory the bytes at I fill the registers; outside it is the fault entry of `withBytesAtI`. -/
theorem loadRegistersReadsV0ToVx : Obligations.LoadRegistersReadsV0ToVx := by
  intro x s
  refine ⟨encodedAs_encode (.ldVxMem x), fun hin => ?_,
    fun hout => withBytesAtI_outside (Nat.succ_ne_zero _) (by omega)⟩
  refine ⟨_, exec_ldVxMem_inside hin, fun r hr => ?_, fun r hr => ?_, ?_, by simp⟩
  · rw [reg_nextInstr, reg_setRegsFrom_bytesAtI, if_pos hr]
  · rw [reg_nextInstr, reg_setRegsFrom_bytesAtI, if_neg (Nat.not_le.mpr hr)]
  · rw [nextInstr_pc, setRegsFrom_pc]

end Sys2Proof.Machine

/-!
The statements about the timers and the keypad (45_timers_keypad.md): the wait for a key, one cycle of it and any number
of cycles; the two key skips; the timer moves with the decrement of their own cycle.
-/

namespace Sys2Proof.Machine

/-! ## The wait for a key (R194, R197) -/

section KeyWait

variable {s : State} {x : Nibble}

/-- With a least pressed key, LD Vx, K writes it and goes on. -/
theorem exec_ldVxK_of_pressed {k : Nat} (hk : leastKey s = some k) :
    exec (.ldVxK x) s = .next (nextInstr (setReg s x (BitVec.ofNat 8 k))) := by
  simp [exec, execLdVxK, hk]

/-- With no key pressed, LD Vx, K leaves the state as it is. -/
theorem exec_ldVxK_of_released (hkey : leastKey s = none) : exec (.ldVxK x) s = .next s := by
  simp [exec, execLdVxK, hkey]

/-- A cycle that waits for a key is the end of the cycle alone. -/
theorem step_of_keyWait (hrun : runsNext s (.ldVxK x)) (hkey : leastKey s = none) :
    step s = .next (bookkeeping (.ldVxK x) s) := by
  rw [step_of_runsNext hrun (exec_ldVxK_of_released hkey), endCycle_completed hrun.1]

/-- The end of the cycle reaches neither the keypad nor what the next fetch reads, so the next cycle waits again. -/
theorem runActions_cycles_of_keyWait (fontBytes : Vector Byte 80) (n : Nat) (hrun : runsNext s (.ldVxK x))
    (hkey : leastKey s = none) :
    runActions fontBytes (List.replicate n .cycle) s = (bookkeeping (.ldVxK x))^[n] s := by
  induction n generalizing s with
  | zero => rfl
  | succ n ih =>
    have hact : act fontBytes .cycle s = bookkeeping (.ldVxK x) s := by simp [act, step_of_keyWait hrun hkey]
    have hrun' : runsNext (bookkeeping (.ldVxK x) s) (.ldVxK x) := hrun
    have hkey' : leastKey (bookkeeping (.ldVxK x) s) = none := hkey
    rw [List.replicate_succ, runActions, hact, ih hrun' hkey', Function.iterate_succ_apply]

end KeyWait

section CycleEnds

variable (i : Instr) (s : State) (n : Nat)

/-- `n` ends of a cycle lower DT by `n`, down to 0 (R95). -/
theorem iterate_bookkeeping_dt_toNat : ((bookkeeping i)^[n] s).dt.toNat = s.dt.toNat - n := by
  induction n with
  | zero => rfl
  | succ n ih => rw [Function.iterate_succ_apply', bookkeeping_dt, countDown_toNat, ih, Nat.sub_sub]

/-- `n` ends of a cycle lower ST by `n`, down to 0 (R96). -/
theorem iterate_bookkeeping_st_toNat : ((bookkeeping i)^[n] s).st.toNat = s.st.toNat - n := by
  induction n with
  | zero => rfl
  | succ n ih => rw [Function.iterate_succ_apply', bookkeeping_st, countDown_toNat, ih, Nat.sub_sub]

theorem onlyChanges_iterate_bookkeeping :
    onlyChanges [.delayTimer, .soundTimer, .outputs] s ((bookkeeping i)^[n] s) := by
  induction n with
  | zero => exact onlyChanges_refl _ s
  | succ n ih =>
    rw [Function.iterate_succ_apply']
    exact onlyChanges_bookkeeping i (by simp) (by simp) (by simp) ih

end CycleEnds

/-- The next instruction depends on PC, on memory and on whether the CPU is halted (R91, R98). -/
theorem runsNext_of_onlyChanges {parts : List Part} {s t : State} {i : Instr} (h : onlyChanges parts s t)
    (hpc : .pc ∉ parts) (hmem : .memory ∉ parts) (hfaults : .faults ∉ parts) (hrun : runsNext s i) : runsNext t i := by
  have hpc' : t.pc = s.pc := h .pc hpc
  have hmem' : ∀ a, readByte t a = readByte s a := h .memory hmem
  obtain ⟨hhalted, -⟩ : t.halted = s.halted ∧ t.fault = s.fault := h .faults hfaults
  simpa [runsNext, hpc', hmem', hhalted] using hrun

/-- Settles O43: the cycles of a wait are ends of a cycle alone, by induction on their number; each lowers the timers
and sets the outputs, which the next fetch does not read. -/
theorem keyWaitHoldsUntilAKeyIsPressed : Obligations.KeyWaitHoldsUntilAKeyIsPressed := by
  intro fontBytes s x n hrun hkey
  rw [runActions_cycles_of_keyWait fontBytes n hrun (leastKey_eq_none.mpr hkey)]
  have hframe := onlyChanges_iterate_bookkeeping (.ldVxK x) s n
  exact ⟨runsNext_of_onlyChanges hframe (by simp) (by simp) (by simp) hrun, hframe .pc (by simp),
    iterate_bookkeeping_dt_toNat _ s n, iterate_bookkeeping_st_toNat _ s n, hframe, rfl⟩

/-- Settles O42: the least pressed key fits a byte and is the one write; with none pressed the cycle is its end alone. -/
theorem keyWaitTakesTheLeastKeyOrHoldsPc : Obligations.KeyWaitTakesTheLeastKeyOrHoldsPc := by
  intro x s
  refine ⟨encodedAs_encode (.ldVxK x), fun k hk hpressed hleast => ?_, fun hreleased => ?_⟩
  · have hkey : leastKey s = some k := leastKey_eq_some.mpr ⟨hk, hpressed, hleast⟩
    refine ⟨_, exec_ldVxK_of_pressed hkey, ?_, frame_nextInstr_setReg s x _⟩
    rw [reg_nextInstr_setReg]
    exact Nat.mod_eq_of_lt (by omega)
  · have hkey : leastKey s = none := leastKey_eq_none.mpr hreleased
    refine ⟨s, exec_ldVxK_of_released hkey, rfl, onlyChanges_refl _ s, fun hrun => ?_⟩
    exact ⟨_, step_of_keyWait hrun hkey, rfl, hrun.1, rfl, countDown_toNat s.dt, countDown_toNat s.st⟩

/-! ## The key skips (R190 to R192) -/

section KeySkip

variable {i : Instr} {x : Nibble} {want : Bool} {s : State}

/-- A key skip with `Vx` up to 0xF tests the entry `Vx`. -/
theorem keySkip_inside (h : (reg s x).toNat < 16) :
    keySkip i x want s = .next (skipIf (s.key[(reg s x).toNat] == want) s) := by
  simp [keySkip, keyAt_inside h]

/-- A key skip with `Vx` above 0xF raises KEY_RANGE with `Vx`. -/
theorem keySkip_outside (h : 0xF < (reg s x).toNat) :
    keySkip i x want s = .next (enterFault s .keyRange (some (encode i)) (some (reg s x).toNat)) := by
  simp [keySkip, keyAt_outside (Nat.succ_le_of_lt h)]

end KeySkip

/-- A skip on a pressed key is taken exactly when it is pressed (R191). -/
theorem skipIf_beq_true_pc (down : Bool) (s : State) :
    (skipIf (down == true) s).pc = if down = true then s.pc + 4 else s.pc + 2 := by
  cases down <;> rfl

/-- A skip on a released key is the other way round (R192). -/
theorem skipIf_beq_false_pc (down : Bool) (s : State) :
    (skipIf (down == false) s).pc = if down = true then s.pc + 2 else s.pc + 4 := by
  cases down <;> rfl

/-- Settles O41: SKP and SKNP are one `keySkip`, on the key down or up. -/
theorem keySkipsTestTheKeyOrRaiseKeyRange : Obligations.KeySkipsTestTheKeyOrRaiseKeyRange := by
  intro x s
  refine ⟨encodedAs_encode (.skp x), encodedAs_encode (.sknp x), fun hin => ⟨?_, ?_⟩,
    fun hout => ⟨keySkip_outside hout, keySkip_outside hout⟩⟩
  · exact ⟨_, keySkip_inside hin, onlyChanges_pc_skipIf _ s, skipIf_beq_true_pc _ s⟩
  · exact ⟨_, keySkip_inside hin, onlyChanges_pc_skipIf _ s, skipIf_beq_false_pc _ s⟩

/-! ## The timer moves (R193, R195, R196) -/

/-- Settles O44: each is one write, then the end of its own cycle, which lowers what was written. -/
theorem timerMovesCopyTheByte : Obligations.TimerMovesCopyTheByte := by
  intro x s
  obtain ⟨hend, -⟩ := cycleEndCountsTimersAndSetsOutputs
  refine ⟨encodedAs_encode (.ldVxDt x), encodedAs_encode (.ldDtVx x), encodedAs_encode (.ldStVx x),
    ⟨_, rfl, reg_nextInstr_setReg s x s.dt, frame_nextInstr_setReg s x s.dt⟩,
    ⟨_, rfl, rfl, rfl, by simp⟩, ⟨_, rfl, rfl, rfl, by simp⟩, fun hrun => ?_, fun hrun => ?_, fun hrun => ?_⟩
  · obtain ⟨u, hstep, -, hdt, -, -, hframe⟩ := hend s _ _ hrun rfl hrun.1
    exact ⟨u, hstep, (hframe .regs (by simp) x).trans (reg_nextInstr_setReg s x s.dt), hdt⟩
  · obtain ⟨u, hstep, -, hdt, -⟩ := hend s _ _ hrun rfl hrun.1
    exact ⟨u, hstep, hdt⟩
  · obtain ⟨u, hstep, -, -, hst, hsound, -⟩ := hend s _ _ hrun rfl hrun.1
    exact ⟨u, hstep, hst, hsound⟩

end Sys2Proof.Machine

/-!
The statements about faults and the host (60_exceptions.md): what a faulting cycle leaves, that each action of the host
and so every sequence of them keeps the machine invariant, and the keypad write.
-/

namespace Sys2Proof.Machine

/-! ## Fault entry (R211, R212, R214) -/

/-- An address that R212 allows is present for MEM_RANGE and KEY_RANGE alone. -/
theorem ne_none_iff_of_addrLegal {c : Cause} {a : Option Nat} (h : addrLegal c a = true) :
    a ≠ none ↔ c = .memRange ∨ c = .keyRange := by
  cases c with
  | memRange | keyRange =>
    cases a with
    | none => cases h
    | some n => simp
  | illegalOpcode | fetchRange | stackOverflow | stackUnderflow =>
    cases a with
    | none => simp
    | some n => cases h

/-- An instruction raises its own faults alone; FETCH_RANGE is the fetch's (R211). -/
theorem ne_fetchRange_of_raises {c : Cause} {i : Instr} (h : raises c i = true) : c ≠ .fetchRange := by
  rintro rfl
  cases h

/-- The opcode of an instruction's record is the one at PC: encoding rebuilds the word that was decoded (log 12). -/
theorem encode_eq_opcodeAtPc {s : State} {i : Instr} (hf : fetchDecode s = .instr i) : encode i = opcodeAtPc s := by
  rcases fetchDecode_cases s with ⟨-, he⟩ | ⟨-, -, he⟩ | ⟨j, -, hd, he⟩ <;> rw [he] at hf <;> cases hf
  exact encodeRebuildsEveryDecodedWord _ _ hd

/-- A cycle that ends halted entered a fault whose record has an address that the cause allows, and the opcode at PC
unless there was none to fetch (R212). -/
theorem step_next_halted_record {s t : State} (h : step s = .next t) (ht : t.halted = true) :
    ∃ c a, addrLegal c a = true ∧
      t = enterFault s c (if c = .fetchRange then none else some (opcodeAtPc s)) a := by
  obtain hf | ⟨i, hf, c, a, hr, ha, rfl⟩ := step_next_halted h ht
  · rcases fetchDecode_cases s with ⟨-, he⟩ | ⟨-, -, he⟩ | ⟨i, -, -, he⟩ <;> rw [he] at hf <;> cases hf
    · exact ⟨.fetchRange, none, rfl, rfl⟩
    · exact ⟨.illegalOpcode, none, rfl, rfl⟩
  · exact ⟨c, a, ha, by rw [if_neg (ne_fetchRange_of_raises hr), encode_eq_opcodeAtPc hf]⟩

/-- Settles O10: the record is the one of the fault entry, and what it leaves is halted. -/
theorem faultEntryIsPrecise : Obligations.FaultEntryIsPrecise := by
  intro s t h ht
  have hstop : ∀ u, step t ≠ .next u := by simp [step_halted ht]
  obtain ⟨c, a, ha, rfl⟩ := step_next_halted_record h ht
  exact ⟨⟨c, s.pc, _, a⟩, rfl, rfl, rfl, ne_none_iff_of_addrLegal ha, hstop⟩

/-! ## The invariant under the host (R228, R231, R241, R242) -/

/-- Reset leaves a running state with no fault and the canonical memory of FONT (R240). -/
theorem stateInv_hostReset (fontBytes : Vector Byte 80) (s : State) : StateInv (hostReset fontBytes s) :=
  stateInv_of_running (resetWith_mem_wf fontBytes) rfl rfl

/-- A store inside the 4096 bytes keeps the invariant: it says nothing of a byte's value but the canonical form. -/
theorem stateInv_storeBytes {s : State} {base : Nat} {bs : List Byte} (h : StateInv s)
    (hin : base + bs.length ≤ Config.memSize) : StateInv (storeBytes s base bs) := by
  obtain ⟨hm, hf⟩ := stateInv_iff.mp h
  exact stateInv_iff.mpr ⟨writeBytes_wf bs base hm (.inr hin), hf⟩

/-- The invariant says nothing of the keypad. -/
theorem stateInv_setKeys {s : State} (k : Vector Bool 16) (h : StateInv s) : StateInv (setKeys k s) := h

/-- The longest ROM ends inside memory (R242). -/
theorem rom_inside {rom : List Byte} (h : rom.length ≤ Config.romMax) :
    Config.progBase + rom.length ≤ Config.memSize := by
  simp only [Config.romMax, Config.progBase, Config.memSize] at *
  omega

/-- A cycle of the host is a step, or has no effect (R231). -/
theorem act_cycle_cases (fontBytes : Vector Byte 80) (s : State) :
    act fontBytes .cycle s = s ∨ step s = .next (act fontBytes .cycle s) := by
  cases h : step s with
  | next t => exact .inr (by simp [act, h])
  | fault r => exact .inl (by simp [act, h])
  | refused r => exact .inl (by simp [act, h])

/-- Each action of the host keeps the invariant. -/
theorem stateInv_act {fontBytes : Vector Byte 80} (a : Action) {s : State} (h : StateInv s) :
    StateInv (act fontBytes a s) := by
  cases a with
  | reset => exact stateInv_hostReset fontBytes s
  | load rom =>
    rcases act_load_cases fontBytes rom s with he | ⟨-, hlen, he⟩ <;> rw [he]
    · exact h
    · exact stateInv_storeBytes h (rom_inside hlen)
  | keys k => exact stateInv_setKeys k h
  | cycle =>
    rcases act_cycle_cases fontBytes s with he | hstep
    · rwa [he]
    · exact everyStepKeepsTheInvariant s _ h hstep

/-- Settles O53, by induction on the sequence of actions. -/
theorem everyHostSequenceKeepsTheInvariant : Obligations.EveryHostSequenceKeepsTheInvariant := by
  intro fontBytes as s h
  induction as generalizing s with
  | nil => exact h
  | cons a as ih => exact ih _ (stateInv_act a h)

/-! ## The keypad write (R228) -/

/-- Settles O58: the action is `setKeys`, which reaches the keypad alone. -/
theorem keypadWriteReplacesAllKeys : Obligations.KeypadWriteReplacesAllKeys :=
  fun _ k s => ⟨setKeys_key k s, onlyChanges_setKeys k (by simp) (onlyChanges_refl _ s)⟩

end Sys2Proof.Machine

/-!
The statements about reset and the hazards (70_reset_and_hazards.md): what Reset leaves in every element, what LoadProgram
stores, the cycle before any load, and a byte of DT read back in the next cycle.
-/

namespace Sys2Proof.Machine

/-! ## Stored bytes among the others (R57) -/

/-- A store leaves the bytes below and above it as they are. -/
theorem readByte_storeBytes_of_outside (s : State) {base a : Nat} {bs : List Byte}
    (h : a < base ∨ base + bs.length ≤ a) : readByte (storeBytes s base bs) a = readByte s a := by
  have hout : ¬(base ≤ a ∧ a - base < bs.length) := by omega
  rw [readByte, storeBytes_mem, read_writeBytes, dif_neg hout, readByte]

/-! ## Reset (R35, R240) -/

/-- The reset state of a FONT is the one of the default FONT with the bytes of that FONT stored. -/
theorem resetWith_eq_storeBytes (fontBytes : Vector Byte 80) :
    State.resetWith fontBytes = storeBytes State.reset 0x050 fontBytes.toList := rfl

theorem readByte_resetWith_font (fontBytes : Vector Byte 80) {j : Nat} (hj : j < 80) :
    readByte (State.resetWith fontBytes) (0x050 + j) = fontBytes[j] := by
  have hlen : j < fontBytes.toList.length := by simpa using hj
  rw [resetWith_eq_storeBytes, readByte_storeBytes_getElem _ _ _ hlen, Vector.getElem_toList]

theorem initByte_of_outside {a : Nat} (h : a < 0x050 ∨ 0x09F < a) : initByte a = 0 := dif_neg (by omega)

theorem readByte_resetWith_of_outside (fontBytes : Vector Byte 80) {a : Nat} (h : a < 0x050 ∨ 0x09F < a) :
    readByte (State.resetWith fontBytes) a = 0 := by
  have hout : a < 0x050 ∨ 0x050 + fontBytes.toList.length ≤ a := by
    rw [Vector.length_toList]
    omega
  rw [resetWith_eq_storeBytes, readByte_storeBytes_of_outside _ hout]
  exact initByte_of_outside h

theorem reg_resetWith (fontBytes : Vector Byte 80) (x : Nibble) : reg (State.resetWith fontBytes) x = 0 :=
  Vector.getElem_replicate _

/-- Settles O54: Reset is the reset state of FONT but for the draw counter, so each element is read off that state. -/
theorem resetSetsEveryElement : Obligations.ResetSetsEveryElement := by
  intro fontBytes
  have hfont : ∀ j (hj : j < 80), readByte (State.resetWith fontBytes) (0x050 + j) = fontBytes[j] :=
    fun _ hj => readByte_resetWith_font fontBytes hj
  have hzero : ∀ a, a < 0x050 ∨ 0x09F < a → readByte (State.resetWith fontBytes) a = 0 :=
    fun _ ha => readByte_resetWith_of_outside fontBytes ha
  have hstack : ∀ j (hj : j < 16), State.reset.stack[j] = 0 := fun _ hj => Vector.getElem_replicate hj
  have hkey : ∀ k (hk : k < 16), State.reset.key[k] = false := fun _ hk => Vector.getElem_replicate hk
  refine ⟨fun s => ?_, rfl, hfont, hzero, onlyChanges_storeBytes _ _ (by simp) (onlyChanges_refl _ _)⟩
  exact ⟨reg_resetWith fontBytes, rfl, rfl, rfl, hstack, rfl, rfl, hkey, hfont, hzero, pixel_clearFrame,
    rfl, rfl, rfl, rfl, rfl⟩

/-! ## LoadProgram (R242) -/

/-- A load that fails changes nothing (R217). -/
theorem act_load_of_error (fontBytes : Vector Byte 80) {rom : List Byte} {s : State} {e : HostError}
    (h : loadProgram rom s = .error e) : act fontBytes (.load rom) s = s := by
  simp only [act, h]

theorem act_load_of_ok (fontBytes : Vector Byte 80) {rom : List Byte} {s t : State}
    (h : loadProgram rom s = .ok t) : act fontBytes (.load rom) s = t := by
  simp only [act, h]

theorem loadProgram_of_empty {rom : List Byte} (h : rom.length = 0) (s : State) :
    loadProgram rom s = .error .romEmpty := if_pos h

theorem loadProgram_of_large {rom : List Byte} (h : 3583 < rom.length) (s : State) :
    loadProgram rom s = .error .romTooLarge :=
  (if_neg (by omega)).trans (if_pos h)

theorem loadProgram_of_fits {rom : List Byte} (hpos : 1 ≤ rom.length) (hmax : rom.length ≤ 3583) (s : State) :
    loadProgram rom s = .ok (storeBytes s 0x200 rom) :=
  (if_neg (by omega)).trans (if_neg (Nat.not_lt.mpr hmax))

/-- Settles O56: the three ranges of the length; a ROM that fits is one store at 0x200. -/
theorem loadProgramPlacesTheRomOrFails : Obligations.LoadProgramPlacesTheRomOrFails := by
  intro fontBytes rom s
  refine ⟨fun hempty => ?_, fun hlarge => ?_, fun hpos hmax => ?_⟩
  · have herr := loadProgram_of_empty hempty s
    exact ⟨herr, act_load_of_error fontBytes herr⟩
  · have herr := loadProgram_of_large hlarge s
    exact ⟨herr, act_load_of_error fontBytes herr⟩
  · have hok := loadProgram_of_fits hpos hmax s
    exact ⟨_, hok, act_load_of_ok fontBytes hok, fun _ hi => readByte_storeBytes_getElem s 0x200 rom hi,
      fun _ ha => readByte_storeBytes_of_outside s ha, by simp⟩

/-! ## A cycle before any load (R243) -/

/-- With nothing loaded the two bytes at 0x200 are zeros, and 0x0000 has no entry (R77). -/
theorem step_resetWith (fontBytes : Vector Byte 80) : step (State.resetWith fontBytes) =
    .next (haltedWith (State.resetWith fontBytes) ⟨.illegalOpcode, 0x200, some 0x0000, none⟩) := by
  have hhi : readByte (State.resetWith fontBytes) 0x200 = 0 := readByte_resetWith_of_outside fontBytes (by omega)
  have hlo : readByte (State.resetWith fontBytes) 0x201 = 0 := readByte_resetWith_of_outside fontBytes (by omega)
  have hpc : (State.resetWith fontBytes).pc.toNat = 0x200 := rfl
  refine illegalOpcodeHaltsWithOpcodeAndPc (State.resetWith fontBytes) 0x0000 rfl (by omega) ?_ (by decide)
  rw [hpc, hhi, hlo]
  rfl

/-- Settles O57: the reset state of the default FONT is the one of that FONT listed byte by byte. -/
theorem cycleBeforeLoadHaltsOnZeroOpcode : Obligations.CycleBeforeLoadHaltsOnZeroOpcode :=
  ⟨resetWith_font ▸ step_resetWith font, step_resetWith⟩

/-! ## DT written and read back (R245) -/

/-- Settles O45: the cycle of Fx15 leaves DT one below the byte written (R95), and the cycle of Fx07 copies that before
it counts down once more. -/
theorem delayTimerReadsBackOneLower : Obligations.DelayTimerReadsBackOneLower := by
  intro s t x y hs hstep ht
  obtain ⟨-, -, -, -, -, -, -, hwrite, -⟩ := timerMovesCopyTheByte x s
  obtain ⟨-, -, -, -, -, -, hread, -⟩ := timerMovesCopyTheByte y t
  obtain ⟨t', hstep', hdt⟩ := hwrite hs
  obtain rfl : t = t' := by simpa using hstep.symm.trans hstep'
  obtain ⟨u, hu, hreg, hdt'⟩ := hread ht
  exact ⟨u, hu, by rw [hreg, hdt], by rw [hdt', hdt, Nat.sub_sub]⟩

end Sys2Proof.Machine
